-- ==== Sys2Proof/Word.lean ====
section
/-! DEFINITION. The words of the QOIF decoder: bytes, 32-bit header fields, bytes of one pixel
(spec/00_scope.md R4, R6). -/

namespace Sys2Proof

/-- One byte; bit 7 is the most significant (R6). -/
abbrev Byte := BitVec 8

/-- One 32-bit header field (R4). -/
abbrev Word32 := BitVec 32

/-- One pixel: four unsigned 8-bit components (spec/10_state.md R11). -/
structure Pixel where
  r : Byte
  g : Byte
  b : Byte
  a : Byte
deriving DecidableEq, Repr

end Sys2Proof
end

