-- ==== Sys2Proof/Config.lean ====
section
/-! DEFINITION. The constants the spec fixes (spec/00_scope.md R4; spec/30_encoding.md R72, R74).
The spec leaves no value of the decoder open, so no free value stands here. -/

namespace Sys2Proof.Config

/-- `CACHE_SLOTS` (R4). -/
abbrev cacheSlots : Nat := 64

/-- `HDR_LEN` (R4). -/
abbrev headerLength : Nat := 14

/-- `END_LEN` (R4). -/
abbrev trailerLength : Nat := 8

/-- The longest run one `RUN` chunk can give (R4; spec/45_run.md R161). -/
abbrev longestRun : Nat := 62

/-- The magic tag ASCII `q,o,i,f` as one 32-bit number, first byte most significant
(spec/40_header.md R101; log entry 14). -/
abbrev magic : Word32 := 0x716F6966#32

/-- The trailer bytes `0,0,0,0,0,0,0,1` as one 64-bit number, first byte most significant
(spec/30_encoding.md R74). -/
abbrev trailer : BitVec 64 := 1#64

/-- The value of the previous-pixel register after reset (spec/10_state.md R26). -/
abbrev resetPixel : Pixel := ⟨0, 0, 0, 255⟩

/-- The value of every cache slot after reset (spec/10_state.md R26). -/
abbrev zeroPixel : Pixel := ⟨0, 0, 0, 0⟩

end Sys2Proof.Config
end

