-- ==== Sys2Proof/Syntax.lean ====
section
/-! DEFINITION. The eight operations of the stream, one constructor per row of
spec/opcode_table.json, with the fields their formats hold (spec/30_encoding.md R71 to R74). -/

namespace Sys2Proof

/-- The three kinds of record of the stream grammar (spec/30_encoding.md R70). Which one is read next
is decided by the phase alone, never by the bytes. -/
inductive Record where
  | header
  | chunk
  | trailer
deriving DecidableEq, Repr

/-- The operations. Fields are held as the stream holds them, biases not yet removed (R78). -/
inductive Instr where
  /-- `HDR`, format `H14`: the four magic bytes, width, height (big-endian), channels, colorspace. A
  record with a wrong magic or channel count still is this operation; it faults when executed. -/
  | hdr (magic width height : Word32) (channels colorspace : Byte)
  /-- `RGB`, format `LIT3`. -/
  | rgb (r g b : Byte)
  /-- `RGBA`, format `LIT4`. -/
  | rgba (r g b a : Byte)
  /-- `INDEX`, format `T6` with tag 0: the cache slot. -/
  | index (v : BitVec 6)
  /-- `DIFF`, format `D222`: the three fields, each a delta biased by 2. -/
  | diff (fr fg fb : BitVec 2)
  /-- `LUMA`, format `L644`: green delta biased by 32, red and blue relative to it biased by 8. -/
  | luma (fg : BitVec 6) (frg fbg : BitVec 4)
  /-- `RUN`, format `T6` with tag 3: the run length minus 1. -/
  | run (v : BitVec 6)
  /-- `END`, format `E8`: the eight bytes read at the trailer's place, first byte most significant.
  Eight bytes other than the trailer still are this operation; it faults when executed. -/
  | endOp (bytes : BitVec 64)
deriving DecidableEq, Repr

/-- The kind of record an operation is (spec/30_encoding.md R71, column "Selected by"). -/
def Instr.record : Instr → Record
  | .hdr .. => .header
  | .rgb .. | .rgba .. | .index .. | .diff .. | .luma .. | .run .. => .chunk
  | .endOp .. => .trailer

/-- The length of an operation in bytes (spec/30_encoding.md R71; spec/10_state.md R16). -/
def Instr.length : Instr → Nat
  | .hdr .. => 14
  | .rgb .. => 4
  | .rgba .. => 5
  | .index .. => 1
  | .diff .. => 1
  | .luma .. => 2
  | .run .. => 1
  | .endOp .. => 8

end Sys2Proof
end

