-- ==== Sys2Proof/WellFormed.lean ====
section
/-! DEFINITION. Which operations the stream can hold. -/

namespace Sys2Proof

/-- A `RUN` payload is 0 to 61: the control bytes of payloads 62 and 63 are the literal markers
(spec/30_encoding.md R75, R80; spec/45_run.md R161). -/
def runPayloadOk (v : BitVec 6) : Bool := v.toNat < Config.longestRun

/-- The one check an operation has: every other field takes all its values (spec/30_encoding.md R76,
R79), and a wrong magic, channel count or trailer is a fault of the operation, not another one
(spec/opcode_table.json, rows `HDR` and `END`). -/
def Instr.wellFormed : Instr → Bool
  | .hdr .. => true
  | .rgb .. => true
  | .rgba .. => true
  | .index .. => true
  | .diff .. => true
  | .luma .. => true
  | .run v => runPayloadOk v
  | .endOp .. => true

end Sys2Proof
end

