-- ==== Sys2Proof/Decode.lean ====
section
/-! DEFINITION. From stream bytes to operations and back (spec/30_encoding.md). -/

namespace Sys2Proof

/-! ## Fields -/

/-- `be32`: big-endian assembly of four bytes (spec/00_scope.md R7; spec/20_memory.md R45). -/
def be32 (b0 b1 b2 b3 : Byte) : Word32 := b0 ++ b1 ++ b2 ++ b3

/-- Eight bytes as one 64-bit number, the first most significant (spec/30_encoding.md R74). -/
def be64 (b0 b1 b2 b3 b4 b5 b6 b7 : Byte) : BitVec 64 := be32 b0 b1 b2 b3 ++ be32 b4 b5 b6 b7

/-- Byte `k` of a 32-bit number, byte 0 most significant. -/
def byteOf32 (w : Word32) (k : Nat) : Byte := w.extractLsb' (8 * (3 - k)) 8

/-- The four bytes of a 32-bit number in stream order (spec/20_memory.md R45). -/
def bytes32 (w : Word32) : List Byte := [byteOf32 w 0, byteOf32 w 1, byteOf32 w 2, byteOf32 w 3]

/-- The eight bytes of a 64-bit number in stream order. -/
def bytes64 (w : BitVec 64) : List Byte :=
  bytes32 (w.extractLsb' 32 32) ++ bytes32 (w.extractLsb' 0 32)

/-- The op tag `b0[7:6]` (R6, R73). -/
def opTag (b0 : Byte) : BitVec 2 := b0.extractLsb' 6 2

/-- The payload `b0[5:0]` (R6, R73). -/
def payload (b0 : Byte) : BitVec 6 := b0.extractLsb' 0 6

/-! ## Dispatch -/

/-- The six chunk operations as the dispatcher names them. -/
inductive ChunkOp where
  | rgb
  | rgba
  | index
  | diff
  | luma
  | run
deriving DecidableEq, Repr

/-- The classification of a control byte, the tests in the spec's order (R75): the literal markers
first, then the tag, whose four values leave nothing over. -/
def classify (b0 : Byte) : ChunkOp :=
  if b0 = 254 then .rgb
  else if b0 = 255 then .rgba
  else if opTag b0 = 0 then .index
  else if opTag b0 = 1 then .diff
  else if opTag b0 = 2 then .luma
  else .run

/-- The length of a chunk from its first byte alone (R76). -/
def chunkLength (b0 : Byte) : Nat :=
  if b0 = 254 then 4 else if b0 = 255 then 5 else if opTag b0 = 2 then 2 else 1

/-! ## The decoder -/

/-- Why bytes decode to no operation. The only reason the spec knows is that there are too few
(R76, R79); the constructor names the record that is cut off. -/
inductive DecodeError where
  | truncated (record : Record)
deriving DecidableEq, Repr

/-- Format `H14` (R72). -/
def decodeHeader : List Byte → Except DecodeError (Instr × List Byte)
  | h0 :: h1 :: h2 :: h3 :: h4 :: h5 :: h6 :: h7 :: h8 :: h9 :: h10 :: h11 :: h12 :: h13 :: rest =>
    .ok (.hdr (be32 h0 h1 h2 h3) (be32 h4 h5 h6 h7) (be32 h8 h9 h10 h11) h12 h13, rest)
  | _ => .error (.truncated .header)

/-- Format `E8` (R74). -/
def decodeTrailer : List Byte → Except DecodeError (Instr × List Byte)
  | t0 :: t1 :: t2 :: t3 :: t4 :: t5 :: t6 :: t7 :: rest =>
    .ok (.endOp (be64 t0 t1 t2 t3 t4 t5 t6 t7), rest)
  | _ => .error (.truncated .trailer)

/-- The bytes after the control byte, per operation (formats `LIT3`, `LIT4`, `T6`, `D222`, `L644`, R73). -/
def decodeChunkAs (b0 : Byte) : ChunkOp → List Byte → Except DecodeError (Instr × List Byte)
  | .rgb, r :: g :: b :: rest => .ok (.rgb r g b, rest)
  | .rgba, r :: g :: b :: a :: rest => .ok (.rgba r g b a, rest)
  | .index, rest => .ok (.index (payload b0), rest)
  | .diff, rest => .ok (.diff (b0.extractLsb' 4 2) (b0.extractLsb' 2 2) (b0.extractLsb' 0 2), rest)
  | .luma, b1 :: rest => .ok (.luma (payload b0) (b1.extractLsb' 4 4) (b1.extractLsb' 0 4), rest)
  | .run, rest => .ok (.run (payload b0), rest)
  | _, _ => .error (.truncated .chunk)

/-- One chunk: the control byte, then what it asks for (spec/41_dispatch_and_commit.md R110, R111). -/
def decodeChunk : List Byte → Except DecodeError (Instr × List Byte)
  | b0 :: rest => decodeChunkAs b0 (classify b0) rest
  | [] => .error (.truncated .chunk)

/-- The decoder: total on any bytes; the record kind comes from the phase (R70). -/
def decode : Record → List Byte → Except DecodeError (Instr × List Byte)
  | .header, bs => decodeHeader bs
  | .chunk, bs => decodeChunk bs
  | .trailer, bs => decodeTrailer bs

/-! ## The encoder -/

/-- The bytes of an operation, from the same formats (R72 to R74; notation of R82). -/
def encode : Instr → List Byte
  | .hdr m w h c s => bytes32 m ++ (bytes32 w ++ (bytes32 h ++ [c, s]))
  | .rgb r g b => [254, r, g, b]
  | .rgba r g b a => [255, r, g, b, a]
  | .index v => [0#2 ++ v]
  | .diff fr fg fb => [1#2 ++ fr ++ fg ++ fb]
  | .luma fg frg fbg => [2#2 ++ fg, frg ++ fbg]
  | .run v => [3#2 ++ v]
  | .endOp t => bytes64 t

/-! ## Words as spec/opcode_table.json numbers them (the host's probe) -/

/-- Byte `k` of a table word of `nbits` bits: bits `8k+7 .. 8k`, zero from `nbits` on. -/
def tableByte (nbits w k : Nat) : Byte := BitVec.ofNat 8 ((w % 2 ^ nbits) >>> (8 * k))

/-- The bytes of a table word in stream order, zeros up to the longest operation. -/
def tableBytes (nbits w : Nat) : List Byte :=
  (List.range Config.headerLength).map (tableByte nbits w)

/-- The kind of record a table row is: `HDR` has 112 bits and `END` 64; phase, not bytes, selects
them, and no chunk row is that long (R71). -/
def tableRecord (nbits : Nat) : Record :=
  if nbits = 112 then .header else if nbits = 64 then .trailer else .chunk

/-- The instruction the decoder reads from the table word `w` of `nbits` bits. -/
def decodeTableWord (nbits w : Nat) : Option Instr :=
  match decode (tableRecord nbits) (tableBytes nbits w) with
  | .ok (i, _) => some i
  | .error _ => none

end Sys2Proof
end

