-- ==== Sys2Proof/Machine/State.lean ====
section
/-! DEFINITION. The state of the decoder (spec/10_state.md), as plain data, and its reset value. -/

namespace Sys2Proof.Machine

open Sys2Proof

/-- The decoder's major state (spec/10_state.md R18). -/
inductive Phase where
  | hdr
  | chunk
  | trailer
  | done
  | fault
deriving DecidableEq, Repr

/-- The causes of a fault (spec/60_exceptions.md R180). Code 7 is reserved and never produced. -/
inductive FaultCode where
  | none
  | badMagic
  | badTrailer
  | badRunPayload
  | invalidOp
  | badChannels
  | runOverflow
deriving DecidableEq, Repr

/-- A byte-addressed memory: the listed bytes, addresses strictly rising. An address that is not
listed holds no byte: in `IN` the host has not offered it, in `OUT` nothing was written there
(spec/20_memory.md R40, R43, R44; log entry 2). -/
abbrev Memory := List Host.Cell

/-- The canonical form: addresses strictly rising. No entry can equal what an unlisted address reads
as, since an unlisted address reads as no byte. -/
def Memory.wf : Memory → Bool
  | [] => true
  | [_] => true
  | c :: d :: m => decide (c.1 < d.1) && Memory.wf (d :: m)

/-- Everything the spec gives the decoder (spec/10_state.md R10), and the host's three inputs to a
step of the model: the stream and the two reset lines (R24; log entries 1 and 4). -/
structure State where
  /-- The previous-pixel register (R11). -/
  px : Pixel
  /-- The 64-slot pixel cache (R13). -/
  cache : Vector Pixel 64
  /-- The input position, the program counter (R16). -/
  ip : Nat
  /-- The pixels written so far (R17). -/
  opx : BitVec 64
  /-- Header register (R19). -/
  width : Word32
  /-- Header register (R19). -/
  height : Word32
  /-- Header register (R19). -/
  channels : Byte
  /-- Header register; read by no rule (R19; spec/40_header.md R104). -/
  colorspace : Byte
  /-- The major state (R18). -/
  phase : Phase
  /-- The cause of the fault taken, `none` if none (R20). -/
  faultCode : FaultCode
  /-- The position of the first byte of the faulting operation (R20). -/
  faultIp : Nat
  /-- `OUT`, the output buffer written so far (R25). -/
  out : Memory
  /-- `IN`, the stream the host supplies (R24, R40). -/
  inp : Memory
  /-- Host input `rst` as the next step samples it (spec/70_reset_and_hazards.md R210). -/
  rst : Bool
  /-- Host input `start` as the next step samples it (spec/70_reset_and_hazards.md R211). -/
  start : Bool
deriving DecidableEq, Repr

/-- Why a step has no next state. A fault of the *decoder* (spec/60_exceptions.md) is none of these:
it is a next state in phase `fault`. -/
inductive Fault where
  /-- Raised by `step` alone: the next operation needs more bytes than `IN` holds, so it does not
  happen and nothing changes (spec/20_memory.md R43: "stuck"; log entry 6). Safe: the model stops
  where the hardware waits. -/
  | stuckOnInput
  /-- Raised by a meaning called outside the phase its precondition names (spec/40_header.md R100,
  spec/41_dispatch_and_commit.md R110, spec/46_trailer.md R170). Safe: the spec gives no effect
  there, and no step raises it (log entry 7). -/
  | wrongPhase
  /-- Raised by a chunk's meaning when `channels` is neither 3 nor 4, where `pixel_bytes` has no
  value (spec/20_memory.md R44; precondition of R110). Safe: no run reaches such a state (log
  entry 8). -/
  | illegalChannels
deriving DecidableEq, Repr

/-- Why an instruction has no meaning. -/
inductive Refusal where
  /-- Raised by an arm of `exec` for an instruction without a meaning; no arm is one now. Safe. -/
  | notModelled (mnemonic : String)
deriving DecidableEq, Repr

/-- What a step or a meaning answers. -/
abbrev Result := Host.Outcome State Fault Refusal

/-- The state after `rst` or `start` (spec/10_state.md R26), with no stream byte offered and neither
reset line asserted (log entries 1 and 4). -/
def State.reset : State where
  px := Config.resetPixel
  cache := Vector.replicate 64 Config.zeroPixel
  ip := 0
  opx := 0
  width := 0
  height := 0
  channels := 0
  colorspace := 0
  phase := .hdr
  faultCode := .none
  faultIp := 0
  out := []
  inp := []
  rst := false
  start := false

end Sys2Proof.Machine
end

