-- ==== Sys2Proof/Machine/Operands.lean ====
section
/-! DEFINITION. The operand forms and their arithmetic (spec/30_encoding.md R78; spec/44_delta.md R153). -/

namespace Sys2Proof.Machine

open Sys2Proof

/-- The cache slot an `INDEX` payload names (R78). -/
def slotOf (v : BitVec 6) : Fin 64 := ⟨v.toNat, by have := v.isLt; omega⟩

/-- A `DIFF` field without its bias of 2: an integer in `-2 .. 1` (R78). -/
def diffDelta (f : BitVec 2) : Int := (f.toNat : Int) - 2

/-- The `LUMA` green field without its bias of 32: an integer in `-32 .. 31` (R78). -/
def lumaGreen (fg : BitVec 6) : Int := (fg.toNat : Int) - 32

/-- A `LUMA` red or blue field without its bias of 8, plus the integer green delta: an integer in
`-40 .. 38` (R78). -/
def lumaOther (f : BitVec 4) (dg : Int) : Int := ((f.toNat : Int) - 8) + dg

/-- The run length of a `RUN` payload (R78). -/
def runLength (v : BitVec 6) : Nat := v.toNat + 1

/-- `(c + d) mod 256`: the byte congruent to the exact sum (R153). -/
def addWrap (c : Byte) (d : Int) : Byte := BitVec.ofInt 8 ((c.toNat : Int) + d)

/-- A pixel with three deltas added to its colour components, alpha kept (spec/44_delta.md R150 to R152). -/
def addDeltas (p : Pixel) (dr dg db : Int) : Pixel :=
  ⟨addWrap p.r dr, addWrap p.g dg, addWrap p.b db, p.a⟩

/-- `3r + 5g + 7b + 11a` on unsigned components, exact (spec/10_state.md R14). -/
def hashSum (p : Pixel) : Nat := 3 * p.r.toNat + 5 * p.g.toNat + 7 * p.b.toNat + 11 * p.a.toNat

/-- The slot index of a pixel (spec/10_state.md R14). -/
def pixelHash (p : Pixel) : Fin 64 := ⟨hashSum p % 64, Nat.mod_lt _ (by decide)⟩

/-- The bytes of one output pixel (spec/20_memory.md R44). Chunk meanings use it with `channels` 3 or 4
only (`legalChannels`). -/
def pixelBytes (channels : Byte) (p : Pixel) : List Byte :=
  if channels = 4 then [p.r, p.g, p.b, p.a] else [p.r, p.g, p.b]

/-- The channel counts a header may carry (spec/40_header.md R102). -/
def legalChannels (c : Byte) : Bool := c = 3 || c = 4

end Sys2Proof.Machine
end

