-- ==== Sys2Proof/Machine/Ops.lean ====
section
/-! DEFINITION. The operations every meaning is written with: memory, pixel counters, fault entry, and
the commit of a chunk (spec/20_memory.md; spec/41_dispatch_and_commit.md; spec/60_exceptions.md). -/

namespace Sys2Proof.Machine

open Sys2Proof

/-! ## Memory -/

/-- The byte at an address, none where no byte is listed. -/
def readByte : Memory → Nat → Option Byte
  | [], _ => none
  | (x, v) :: m, a => if x = a then some v else readByte m a

/-- A memory with the byte at one address set, in canonical form. -/
def writeByte : Memory → Nat → Byte → Memory
  | [], a, b => [(a, b)]
  | (x, v) :: m, a, b =>
    if a < x then (a, b) :: (x, v) :: m
    else if a = x then (a, b) :: m
    else (x, v) :: writeByte m a b

/-- `MemRead(addr, n)`: the `n` bytes from `addr` on, none if one of them is missing
(spec/20_memory.md R43). -/
def memRead (m : Memory) (a : Nat) : Nat → Option (List Byte)
  | 0 => some []
  | n + 1 =>
    match readByte m a, memRead m (a + 1) n with
    | some b, some bs => some (b :: bs)
    | _, _ => none

/-- `MemWrite(addr, n, v)`: the bytes of `v` at `addr`, `addr + 1`, … (spec/20_memory.md R44). -/
def memWrite (m : Memory) (a : Nat) : List Byte → Memory
  | [] => m
  | b :: bs => memWrite (writeByte m a b) (a + 1) bs

/-- A finite byte list as the memory that holds it from address 0 (spec/10_state.md R24). -/
def streamMemory (bs : List Byte) : Memory := memWrite [] 0 bs

/-! ## Counters -/

/-- `P`, the number of pixels of the image, exact (spec/10_state.md R17). -/
def pixelCount (s : State) : Nat := s.width.toNat * s.height.toNat

/-- `P - opx`, the pixels still to be written (0 in the states no run reaches in which `opx > P`; log
entry 13). -/
def pixelsLeft (s : State) : Nat := pixelCount s - s.opx.toNat

/-- `N = P * channels`, the length of the whole image in bytes (spec/10_state.md R10). -/
def imageLength (s : State) : Nat := pixelCount s * s.channels.toNat

/-- The `OUT` address of pixel index `opx`: where the next pixel is stored (spec/10_state.md R17). -/
def outAddr (s : State) : Nat := s.opx.toNat * s.channels.toNat

/-- The pixel index of column `x`, row `y` (spec/20_memory.md R42). -/
def pixelIndex (s : State) (x y : Nat) : Nat := y * s.width.toNat + x

/-- `next_phase()` (spec/41_dispatch_and_commit.md R115). -/
def nextPhase (s : State) : Phase := if s.opx.toNat = pixelCount s then .trailer else .chunk

/-! ## Single registers -/

/-- `ip <- ip + n`. -/
def advanceIp (n : Nat) (s : State) : State := { s with ip := s.ip + n }

/-- `px <- p`. -/
def setPx (p : Pixel) (s : State) : State := { s with px := p }

/-- `phase <- x`. -/
def setPhase (x : Phase) (s : State) : State := { s with phase := x }

/-! ## Fault entry: the one way a fault of the decoder is taken -/

/-- `raise Fault(code)` in an operation that began at `ip0` and has length `n`
(spec/60_exceptions.md R188). No operation returns from it (R189). -/
def raiseFault (code : FaultCode) (ip0 n : Nat) (s : State) : State :=
  { s with faultCode := code, faultIp := ip0, ip := ip0 + n, phase := .fault }

/-- The `Restart` host action, `rst` or `start` sampled: every piece of state takes its reset value,
in any phase (spec/70_reset_and_hazards.md R210, R211). The stream is the host's, and stays; the
request is served (log entry 4). -/
def restart (s : State) : State := { State.reset with inp := s.inp }

/-- The host offers one more byte at the end of the stream (spec/20_memory.md R54, R57). -/
def offerByte (s : State) (b : Byte) : State := { s with inp := writeByte s.inp s.inp.length b }

/-! ## The chunk step -/

/-- One pixel written to the output (the body of the loop of R112). -/
def emitPixel (s : State) : State :=
  { s with out := memWrite s.out (outAddr s) (pixelBytes s.channels s.px), opx := s.opx + 1 }

/-- `repeat run times` of R112. -/
def emitRun : Nat → State → State
  | 0, s => s
  | k + 1, s => emitRun k (emitPixel s)

/-- `cache[hash(px)] <- px`, once per chunk (R112, R114). -/
def cachePixel (s : State) : State := { s with cache := s.cache.set (pixelHash s.px).val s.px (pixelHash s.px).isLt }

/-- Commit of a chunk that began at `ip0` and has length `n` (spec/41_dispatch_and_commit.md R112). -/
def commit (ip0 n : Nat) (pxNew : Pixel) (run : Nat) (s : State) : State :=
  if pixelsLeft s < run then raiseFault .runOverflow ip0 n s
  else
    let t := cachePixel (emitRun run (setPx pxNew s))
    setPhase (nextPhase t) t

/-- The frame shared by the six chunks (spec/41_dispatch_and_commit.md R110): the precondition, then
`ip <- ip + n`, then commit of what the chunk's own `execute` gave. -/
def chunkStep (n : Nat) (pxNew : Pixel) (run : Nat) (s : State) : Result :=
  if s.phase ≠ .chunk then .fault .wrongPhase
  else if legalChannels s.channels then .next (commit s.ip n pxNew run (advanceIp n s))
  else .fault .illegalChannels

end Sys2Proof.Machine
end

