-- ==== Sys2Proof/Machine/Delta.lean ====
section
/-! DEFINITION. The delta chunks (spec/44_delta.md). -/

namespace Sys2Proof.Machine

/-- `DIFF dr, dg, db` (R150). -/
def execDiff (fr fg fb : BitVec 2) (s : State) : Result :=
  chunkStep 1 (addDeltas s.px (diffDelta fr) (diffDelta fg) (diffDelta fb)) 1 s

/-- `LUMA dg, drg, dbg` (R151): red and blue use the integer green delta. -/
def execLuma (fg : BitVec 6) (frg fbg : BitVec 4) (s : State) : Result :=
  let dg := lumaGreen fg
  chunkStep 2 (addDeltas s.px (lumaOther frg dg) dg (lumaOther fbg dg)) 1 s

end Sys2Proof.Machine
end

