-- ==== Sys2Proof/Machine/Header.lean ====
section
/-! DEFINITION. The header record (spec/40_header.md). -/

namespace Sys2Proof.Machine

open Sys2Proof

/-- The four header registers latched, before any check (R100). -/
def latchHeader (w h : Word32) (c cs : Byte) (s : State) : State :=
  { s with width := w, height := h, channels := c, colorspace := cs }

/-- `HDR` (R100): latch, advance, check the magic (R101), then the channel count (R102), then the first
phase (R103). -/
def execHdr (magic w h : Word32) (c cs : Byte) (s : State) : Result :=
  if s.phase ≠ .hdr then .fault .wrongPhase
  else
    let t := advanceIp 14 (latchHeader w h c cs s)
    if magic ≠ Config.magic then .next (raiseFault .badMagic s.ip 14 t)
    else if legalChannels c then .next (setPhase (nextPhase t) t)
    else .next (raiseFault .badChannels s.ip 14 t)

end Sys2Proof.Machine
end

