-- ==== Sys2Proof/Machine/Index.lean ====
section
/-! DEFINITION. The pixel-cache lookup (spec/43_index.md). -/

namespace Sys2Proof.Machine

/-- `INDEX i` (R140): the slot as the previous chunk left it; the slot's hash is not checked. -/
def execIndex (v : BitVec 6) (s : State) : Result := chunkStep 1 s.cache[slotOf v] 1 s

end Sys2Proof.Machine
end

