-- ==== Sys2Proof/Machine/Literal.lean ====
section
/-! DEFINITION. The literal chunks (spec/42_literal.md). -/

namespace Sys2Proof.Machine

open Sys2Proof

/-- `RGB r, g, b` (R130): three raw bytes, alpha kept. -/
def execRgb (r g b : Byte) (s : State) : Result := chunkStep 4 ⟨r, g, b, s.px.a⟩ 1 s

/-- `RGBA r, g, b, a` (R131): four raw bytes, in both channel modes. -/
def execRgba (r g b a : Byte) (s : State) : Result := chunkStep 5 ⟨r, g, b, a⟩ 1 s

end Sys2Proof.Machine
end

