-- ==== Sys2Proof/Machine/Run.lean ====
section
/-! DEFINITION. The run chunk (spec/45_run.md). -/

namespace Sys2Proof.Machine

/-- `RUN n` (R160). The check of payload 63 stands in `execute`, before the commit; no stream reaches it
(R161; spec/60_exceptions.md R184; log entry 10). -/
def execRun (v : BitVec 6) (s : State) : Result :=
  if v = 63 ∧ s.phase = .chunk then .next (raiseFault .badRunPayload s.ip 1 s)
  else chunkStep 1 s.px (runLength v) s

end Sys2Proof.Machine
end

