-- ==== Sys2Proof/Machine/Trailer.lean ====
section
/-! DEFINITION. The trailer check (spec/46_trailer.md). -/

namespace Sys2Proof.Machine

open Sys2Proof

/-- `END` (R170): all eight bytes are consumed, then compared as a whole (R171). -/
def execEnd (bytes : BitVec 64) (s : State) : Result :=
  if s.phase ≠ .trailer then .fault .wrongPhase
  else if bytes = Config.trailer then .next (setPhase .done (advanceIp 8 s))
  else .next (raiseFault .badTrailer s.ip 8 (advanceIp 8 s))

end Sys2Proof.Machine
end

