-- ==== Sys2Proof/Machine/Dispatch.lean ====
section
/-! DEFINITION. One arm per operation of the stream. -/

namespace Sys2Proof.Machine

open Sys2Proof

/-- The meaning of an operation at a state. -/
def exec (i : Instr) (s : State) : Host.Outcome State Fault Refusal :=
  match i with
  | .hdr magic w h c cs => Sys2Proof.Machine.execHdr magic w h c cs s
  | .rgb r g b => Sys2Proof.Machine.execRgb r g b s
  | .rgba r g b a => Sys2Proof.Machine.execRgba r g b a s
  | .index v => Sys2Proof.Machine.execIndex v s
  | .diff fr fg fb => Sys2Proof.Machine.execDiff fr fg fb s
  | .luma fg frg fbg => Sys2Proof.Machine.execLuma fg frg fbg s
  | .run v => Sys2Proof.Machine.execRun v s
  | .endOp bytes => Sys2Proof.Machine.execEnd bytes s

end Sys2Proof.Machine
end

