-- ==== Sys2Proof/Machine/Fetch.lean ====
section
/-! DEFINITION. Reading the next operation from the stream (spec/41_dispatch_and_commit.md R110, R111),
and placing one there (the host's probe). -/

namespace Sys2Proof.Machine

open Sys2Proof

/-- The record read next, by phase alone (spec/30_encoding.md R70); none in the two final phases
(spec/10_state.md R18). -/
def recordOf : Phase → Option Record
  | .hdr => some .header
  | .chunk => some .chunk
  | .trailer => some .trailer
  | .done => none
  | .fault => none

/-- The bytes of the next record: 14 or 8 for header and trailer; for a chunk `MemRead(ip, 1)` and then
`MemRead(ip, n)` with the length the control byte gives (spec/20_memory.md R43). -/
def fetchBytes (m : Memory) (ip : Nat) : Record → Option (List Byte)
  | .header => memRead m ip Config.headerLength
  | .trailer => memRead m ip Config.trailerLength
  | .chunk =>
    match readByte m ip with
    | some b0 => memRead m ip (chunkLength b0)
    | none => none

/-- What a fetch finds. -/
inductive Fetched where
  /-- Phase `done` or `fault`: nothing is read (spec/46_trailer.md R172). -/
  | idle
  /-- A byte of the record is missing (spec/20_memory.md R43). -/
  | stuck
  /-- An operation. -/
  | op (i : Instr)
deriving DecidableEq, Repr

/-- Fetch and decode at `ip`. -/
def fetch (s : State) : Fetched :=
  match recordOf s.phase with
  | none => .idle
  | some r =>
    match fetchBytes s.inp s.ip r with
    | none => .stuck
    | some bs =>
      match decode r bs with
      | .ok (i, _) => .op i
      | .error _ => .stuck

/-- A host reset line is asserted (spec/70_reset_and_hazards.md R210, R211). -/
def restartAsked (s : State) : Bool := s.rst || s.start

/-- The bytes of a table word placed at `ip` in the stream. -/
def placeBytes (s : State) (bs : List Byte) : State := { s with inp := memWrite s.inp s.ip bs }

/-- The phase that reads a record of this kind. -/
def phaseOf : Record → Phase
  | .header => .hdr
  | .chunk => .chunk
  | .trailer => .trailer

/-- Room for a chunk: a legal channel count and at least the longest run still to be written, where the
state does not have them already. -/
def withRoom (s : State) : State :=
  let t := if legalChannels s.channels then s else { s with channels := 3 }
  if Config.longestRun ≤ pixelsLeft t then t else { t with width := 0xFFFFFFFF, height := 0xFFFFFFFF }

/-- The state in which the next step reads a record of this kind (log entry 3). -/
def selectRecord (r : Record) (s : State) : State :=
  let t := { s with phase := phaseOf r, rst := false, start := false }
  if r = .chunk then withRoom t else t

end Sys2Proof.Machine
end

