-- ==== Sys2Proof/Machine/Step.lean ====
section
/-! DEFINITION. One step of the decoder: one host action or one operation (spec/00_scope.md R8). -/

namespace Sys2Proof.Machine

open Sys2Proof

/-- One step. A sampled `rst` or `start` overrides everything (spec/70_reset_and_hazards.md R210, R211).
Otherwise the phase decides: in `done` and `fault` nothing happens (spec/60_exceptions.md R189;
spec/46_trailer.md R172; log entry 9), and in the other phases the next operation is read and executed, or the
decoder is stuck on input (spec/20_memory.md R43). -/
def step (s : State) : Host.Outcome State Fault Refusal :=
  if restartAsked s then .next (restart s)
  else
    match fetch s with
    | .idle => .next s
    | .stuck => .fault .stuckOnInput
    | .op i => exec i s

/-- The state in which the very next step fetches and runs the operation of this table word: its bytes
at `ip`, the phase that reads that kind of record, and for a chunk room to write its pixels
(log entry 3). -/
def State.withFetchWord (s : State) (nbits w : Nat) : State :=
  placeBytes (selectRecord (tableRecord nbits) s) (tableBytes nbits w)

end Sys2Proof.Machine
end

