-- ==== Sys2Proof/Machine/Asm.lean ====
section
/-! DEFINITION. The spec's notation for streams (spec/30_encoding.md R82), a line as data (log entry 16). -/

namespace Sys2Proof.Machine

open Sys2Proof

/-- One line of the notation; operands as the reader writes them, biases removed. -/
inductive AsmLine where
  | hdr (w h c s : Nat)
  | index (i : Nat)
  | diff (dr dg db : Int)
  | luma (dg drg dbg : Int)
  | run (n : Nat)
  | rgb (r g b : Nat)
  | rgba (r g b a : Nat)
  | endLine
  /-- `.byte x, ...` -/
  | bytes (xs : List Nat)
deriving DecidableEq, Repr

/-- The operand limits (R82, column "Operand limits"). -/
def asmLimits : AsmLine → Bool
  | .hdr w h c s => w < 2 ^ 32 && h < 2 ^ 32 && c < 256 && s < 256
  | .index i => i < 64
  | .diff dr dg db =>
    -2 ≤ dr && dr ≤ 1 && -2 ≤ dg && dg ≤ 1 && -2 ≤ db && db ≤ 1
  | .luma dg drg dbg =>
    -32 ≤ dg && dg ≤ 31 && -8 ≤ drg && drg ≤ 7 && -8 ≤ dbg && dbg ≤ 7
  | .run n => 1 ≤ n && n ≤ 62
  | .rgb r g b => r < 256 && g < 256 && b < 256
  | .rgba r g b a => r < 256 && g < 256 && b < 256 && a < 256
  | .endLine => true
  | .bytes xs => xs.all (· < 256)

/-- A number as one byte. -/
def byteOfNat (n : Nat) : Byte := BitVec.ofNat 8 n

/-- The bytes a line produces (R82, column "Bytes produced"), computed as the table writes them. -/
def asmBytes : AsmLine → List Byte
  | .hdr w h c s =>
    [0x71, 0x6F, 0x69, 0x66] ++ bytes32 (BitVec.ofNat 32 w) ++ bytes32 (BitVec.ofNat 32 h) ++
      [byteOfNat c, byteOfNat s]
  | .index i => [byteOfNat i]
  | .diff dr dg db => [byteOfNat (0x40 + (dr + 2) * 16 + (dg + 2) * 4 + (db + 2)).toNat]
  | .luma dg drg dbg =>
    [byteOfNat (0x80 + (dg + 32)).toNat, byteOfNat ((drg + 8) * 16 + (dbg + 8)).toNat]
  | .run n => [byteOfNat (0xC0 + (n - 1))]
  | .rgb r g b => [0xFE, byteOfNat r, byteOfNat g, byteOfNat b]
  | .rgba r g b a => [0xFF, byteOfNat r, byteOfNat g, byteOfNat b, byteOfNat a]
  | .endLine => [0, 0, 0, 0, 0, 0, 0, 1]
  | .bytes xs => xs.map byteOfNat

/-- The assembler: a line outside its limits is not writable (R82). -/
def assemble (l : AsmLine) : Option (List Byte) := if asmLimits l then some (asmBytes l) else none

/-- The disassembler (R82; fields by R77, R78). A header or trailer with other bytes than the format
requires has no line of its own and is written `.byte`. -/
def disassemble : Instr → AsmLine
  | .hdr m w h c s =>
    if m = Config.magic then .hdr w.toNat h.toNat c.toNat s.toNat
    else .bytes ((encode (.hdr m w h c s)).map BitVec.toNat)
  | .rgb r g b => .rgb r.toNat g.toNat b.toNat
  | .rgba r g b a => .rgba r.toNat g.toNat b.toNat a.toNat
  | .index v => .index v.toNat
  | .diff fr fg fb => .diff (diffDelta fr) (diffDelta fg) (diffDelta fb)
  | .luma fg frg fbg => .luma (lumaGreen fg) (lumaOther frg 0) (lumaOther fbg 0)
  | .run v => .run (runLength v)
  | .endOp t => if t = Config.trailer then .endLine else .bytes ((encode (.endOp t)).map BitVec.toNat)

end Sys2Proof.Machine
end

