-- ==== Sys2Proof/Machine/Flags.lean ====
section
/-! DEFINITION. The status flags and register codes (spec/10_state.md R18, R20, R21; the decoder has no
condition codes). -/

namespace Sys2Proof.Machine

/-- The 3-bit code of a phase (spec/10_state.md R18). -/
def phaseCode : Phase → BitVec 3
  | .hdr => 0
  | .chunk => 1
  | .trailer => 2
  | .done => 3
  | .fault => 4

/-- The 3-bit code of a fault cause (spec/60_exceptions.md R180). -/
def faultCodeBits : FaultCode → BitVec 3
  | .none => 0
  | .badMagic => 1
  | .badTrailer => 2
  | .badRunPayload => 3
  | .invalidOp => 4
  | .badChannels => 5
  | .runOverflow => 6

/-- Flag `done` (R21). -/
def doneFlag (s : State) : Bool := s.phase = .done

/-- Flag `fault` (R21). -/
def faultFlag (s : State) : Bool := s.phase = .fault

/-- Flag `busy` (R21). -/
def busyFlag (s : State) : Bool := s.phase = .hdr || s.phase = .chunk || s.phase = .trailer

/-- Flag `hdr_valid` (R21). -/
def hdrValidFlag (s : State) : Bool :=
  s.phase = .chunk || s.phase = .trailer || s.phase = .done ||
    (s.phase = .fault && (s.faultCode = .badTrailer || s.faultCode = .runOverflow))

end Sys2Proof.Machine
end

