-- ==== Sys2Proof/Machine/Runs.lean ====
section
/-! DEFINITION. Runs of one decoder and of several (spec/00_scope.md R8; spec/60_exceptions.md R196). -/

namespace Sys2Proof.Machine

open Sys2Proof

/-- `k` steps of one decoder, ending early at a stop. -/
def stepN : Nat → State → Result
  | 0, s => .next s
  | k + 1, s =>
    match step s with
    | .next t => stepN k t
    | .fault f => .fault f
    | .refused r => .refused r

/-- The state after one step; the state itself where the decoder is stuck (no state changes,
spec/20_memory.md R43). -/
def settle (s : State) : State :=
  match step s with
  | .next t => t
  | _ => s

/-- Several decoders side by side: the product of their states, nothing shared (R196). Only decoder `k`
steps; a position outside the list names no decoder. -/
def stepInstance (bank : List State) (k : Nat) : List State := bank.modify k settle

end Sys2Proof.Machine
end

