-- ==== Sys2Proof/Machine/Ports.lean ====
section
/-! DEFINITION. The stream ports, the status ports and the byte-serial decoder behind them
(spec/20_memory.md R54 to R58; spec/10_state.md R22, R23; spec/70_reset_and_hazards.md R210, R211). One
tick is one clock cycle. -/

namespace Sys2Proof.Machine

open Sys2Proof

/-! ## Status ports -/

/-- The read-only status ports (spec/10_state.md R22). -/
structure StatusPorts where
  stPhase : BitVec 3
  stDone : Bool
  stFault : Bool
  stBusy : Bool
  stHdrValid : Bool
  stWidth : BitVec 32
  stHeight : BitVec 32
  stChannels : BitVec 8
  stColorspace : BitVec 8
  stFaultCode : BitVec 3
  stFaultIp : BitVec 64
  stIp : BitVec 64
  stOpx : BitVec 64
deriving DecidableEq, Repr

/-- What the status ports show of a state (R22): `ip` and `fault_ip` modulo `2^64`. -/
def statusPorts (s : State) : StatusPorts where
  stPhase := phaseCode s.phase
  stDone := doneFlag s
  stFault := faultFlag s
  stBusy := busyFlag s
  stHdrValid := hdrValidFlag s
  stWidth := s.width
  stHeight := s.height
  stChannels := s.channels
  stColorspace := s.colorspace
  stFaultCode := faultCodeBits s.faultCode
  stFaultIp := BitVec.ofNat 64 s.faultIp
  stIp := BitVec.ofNat 64 s.ip
  stOpx := s.opx

/-! ## The byte-serial decoder -/

/-- The block's inputs in one cycle (R54, R55, R210, R211). -/
structure PortIn where
  rst : Bool
  start : Bool
  inValid : Bool
  inData : Byte
  outReady : Bool
deriving DecidableEq, Repr

/-- The implementation's own choice in one cycle, which the spec leaves free (R54 "within finite time";
R58; log entry 11): whether it is ready for a byte where it may be, and whether a waiting pixel is offered next. An
argument, so that every statement holds for every choice, or for every fair one (`FairTurns`). -/
structure Pace where
  inNow : Bool
  outNow : Bool
deriving DecidableEq, Repr

/-- The decoder between two cycles: the state of the last operation boundary, whose `IN` is the bytes
transferred since reset (those at or after `ip` are the assembly buffer of R23); the pixels of the
current chunk not yet transferred (the run counter of R23); and whether a pixel stands offered. -/
structure PortState where
  core : State
  left : Nat
  offering : Bool
deriving DecidableEq, Repr

/-- After `rst` or `start` (spec/10_state.md R26): no byte transferred, buffer and run counter empty. -/
def portReset : PortState := ⟨State.reset, 0, false⟩

/-- A reset line is sampled high (R210, R211). That `start` alone also holds `in_ready` and `out_valid` at
0 and drops the transfer offered in its cycle is the model's choice (log entry 20): R210 says so of `rst`,
R211 only gives `start` the same effect on architectural state. -/
def portResetAsked (i : PortIn) : Bool := i.rst || i.start

/-- The pixels the operation at a boundary state writes. -/
def newPixels (s : State) : Nat := (settle s).opx.toNat - s.opx.toNat

/-- The condition under which `in_ready` may be 1 (R54): busy, and no pixel of the current chunk waiting. -/
def mayAccept (p : PortState) : Bool := busyFlag p.core && p.left == 0 && !p.offering

/-- Output `in_ready` (R54; 0 in an `rst` cycle by R210, and in a `start` cycle by log entry 20). -/
def inReady (pace : Pace) (i : PortIn) (p : PortState) : Bool :=
  !portResetAsked i && mayAccept p && pace.inNow

/-- Output `out_valid` (R55; 0 in an `rst` cycle by R210, and in a `start` cycle by log entry 20). -/
def outValid (i : PortIn) (p : PortState) : Bool := !portResetAsked i && p.offering

/-- A pixel as the output port carries it: r in the top lane, a in the low lane, in both channel modes
(R55). -/
def lanes (q : Pixel) : BitVec 32 := q.r ++ q.g ++ q.b ++ q.a

/-- Output `out_px`: the new `px` of the chunk whose pixels are being transferred (R55). What the lanes
carry while `out_valid` is 0 means nothing (log entry 17). -/
def outPx (p : PortState) : BitVec 32 := lanes (settle p.core).px

/-- After a byte: if it completes an operation that writes no pixel, the next boundary is reached; if it
completes a chunk, its pixels wait; else the byte is buffered (R56). -/
def afterByte (pace : Pace) (c : State) : PortState :=
  match step c with
  | .next t => if newPixels c = 0 then ⟨t, 0, false⟩ else ⟨c, newPixels c, pace.outNow⟩
  | _ => ⟨c, 0, false⟩

/-- After a pixel: the last one completes the chunk (R56). -/
def afterPixel (pace : Pace) (p : PortState) : PortState :=
  if p.left ≤ 1 then ⟨settle p.core, 0, false⟩ else ⟨p.core, p.left - 1, pace.outNow⟩

/-- One clock cycle (R54 to R56; R210, R211). An offered pixel stays offered until it is accepted. -/
def tick (pace : Pace) (i : PortIn) (p : PortState) : PortState :=
  if portResetAsked i then portReset
  else if p.offering then (if i.outReady then afterPixel pace p else p)
  else if 0 < p.left then { p with offering := pace.outNow }
  else if inReady pace i p && i.inValid then afterByte pace (offerByte p.core i.inData)
  else p

/-! ## What the ports show inside an operation (log entry 5) -/

/-- The pixels of the current chunk already transferred. -/
def sentPixels (p : PortState) : Nat := if p.left = 0 then 0 else newPixels p.core - p.left

/-- The state as the ports show it: the boundary state with the pixels transferred so far written. -/
def portView (p : PortState) : State :=
  if p.left = 0 then p.core
  else { emitRun (sentPixels p) { p.core with px := (settle p.core).px } with px := p.core.px }

/-- The status ports in any cycle (R22). -/
def portStatus (p : PortState) : StatusPorts := statusPorts (portView p)

/-! ## Transfers in order (R56) -/

/-- One transfer on a stream port. -/
inductive PortEvent where
  | byteIn (b : Byte)
  | pixelOut (px : BitVec 32)
deriving DecidableEq, Repr

/-- The transfer of one cycle, if there is one (R54, R55). -/
def tickEvent (pace : Pace) (i : PortIn) (p : PortState) : List PortEvent :=
  if outValid i p && i.outReady then [.pixelOut (outPx p)]
  else if inReady pace i p && i.inValid then [.byteIn i.inData]
  else []

/-- A run of cycles: the state reached. -/
def ticks : List (Pace × PortIn) → PortState → PortState
  | [], p => p
  | (pace, i) :: l, p => ticks l (tick pace i p)

/-- A run of cycles: its transfers in order. -/
def tickEvents : List (Pace × PortIn) → PortState → List PortEvent
  | [], _ => []
  | (pace, i) :: l, p => tickEvent pace i p ++ tickEvents l (tick pace i p)

/-- The bytes of a memory from `a` up to `b`, as transfers. -/
def byteEvents (m : Memory) (a b : Nat) : List PortEvent :=
  ((memRead m a (b - a)).getD []).map .byteIn

/-- The transfers of one step of the model from `s` to `t`: all its bytes, then all its pixels (R56). -/
def stepEvents (s t : State) : List PortEvent :=
  byteEvents s.inp s.ip t.ip ++ List.replicate (t.opx.toNat - s.opx.toNat) (.pixelOut (lanes t.px))

/-- The transfers of `k` steps of the model. -/
def modelEvents : Nat → State → List PortEvent
  | 0, _ => []
  | k + 1, s =>
    match step s with
    | .next t => stepEvents s t ++ modelEvents k t
    | _ => []

/-- The transfers of the operation in progress: its bytes so far, then its pixels so far. -/
def partialEvents (p : PortState) : List PortEvent :=
  byteEvents p.core.inp p.core.ip p.core.inp.length ++
    List.replicate (sentPixels p) (.pixelOut (outPx p))

/-! ## A host that serves one stream (spec/70_reset_and_hazards.md R220) -/

/-- A transfer on the input port. -/
def PortEvent.isByte : PortEvent → Bool
  | .byteIn _ => true
  | .pixelOut _ => false

/-- What is free in one cycle of such a run: the decoder's pace, whether the host offers its next byte,
and whether it accepts a pixel. -/
structure Turn where
  pace : Pace
  offer : Bool
  accept : Bool
deriving DecidableEq, Repr

/-- The inputs of a cycle: no reset line, and the byte at the position of the stream reached so far, as
long as there is one (spec/20_memory.md R54, R57). -/
def hostInput (stream : List Byte) (c : Turn) (p : PortState) : PortIn :=
  match stream[p.core.inp.length]? with
  | some b => ⟨false, false, c.offer, b, c.accept⟩
  | none => ⟨false, false, false, 0, c.accept⟩

/-- The byte-serial decoder after `n` cycles from reset, served one stream. -/
def serve (stream : List Byte) (turns : Nat → Turn) : Nat → PortState
  | 0 => portReset
  | n + 1 =>
    let p := serve stream turns n
    tick (turns n).pace (hostInput stream (turns n) p) p

/-- The transfers of these cycles in order. -/
def serveEvents (stream : List Byte) (turns : Nat → Turn) : Nat → List PortEvent
  | 0 => []
  | n + 1 =>
    let p := serve stream turns n
    serveEvents stream turns n ++ tickEvent (turns n).pace (hostInput stream (turns n) p) p

end Sys2Proof.Machine
end

