-- ==== Sys2Proof/Safety.lean ====
section
/-! DEFINITION. The terms claims are stated in: the invariants of a run, what a completed chunk did, and
how a run ends. -/

namespace Sys2Proof.Machine

open Sys2Proof

/-! ## Preconditions -/

/-- No reset line is sampled. -/
def Quiet (s : State) : Prop := s.rst = false ∧ s.start = false

/-- The precondition of a chunk step (spec/41_dispatch_and_commit.md R110). -/
def ChunkReady (s : State) : Prop := s.phase = .chunk ∧ (s.channels = 3 ∨ s.channels = 4)

/-- `run` more pixels fit into the image (R112). -/
def Fits (s : State) (run : Nat) : Prop := s.opx.toNat + run ≤ s.width.toNat * s.height.toNat

/-- The bytes of operation `i` stand at `ip`. -/
def HoldsAt (s : State) (i : Instr) : Prop :=
  ∀ k (b : Byte), (encode i)[k]? = some b → readByte s.inp (s.ip + k) = some b

/-- How many bytes a chunk with this control byte has, in the spec's own numbers
(spec/30_encoding.md R76). -/
def bytesNeeded (b0 : Byte) : Nat :=
  if b0 = 254 then 4 else if b0 = 255 then 5 else if b0.toNat / 64 = 2 then 2 else 1

/-- A byte of the next record is not in `IN` (spec/20_memory.md R43). -/
def Missing (s : State) : Record → Prop
  | .header => ∃ k < 14, readByte s.inp (s.ip + k) = none
  | .trailer => ∃ k < 8, readByte s.inp (s.ip + k) = none
  | .chunk => readByte s.inp s.ip = none ∨
      ∃ b0, readByte s.inp s.ip = some b0 ∧ ∃ k < bytesNeeded b0, readByte s.inp (s.ip + k) = none

/-- The run length of a chunk: 1 for every chunk but `RUN` (spec/10_state.md R17). -/
def chunkRun : Instr → Nat
  | .run v => v.toNat + 1
  | _ => 1

/-! ## What an operation leaves alone -/

/-- The four header registers are as before. -/
def SameHeader (s t : State) : Prop :=
  t.width = s.width ∧ t.height = s.height ∧ t.channels = s.channels ∧ t.colorspace = s.colorspace

/-- The two fault registers are as before. -/
def SameFault (s t : State) : Prop := t.faultCode = s.faultCode ∧ t.faultIp = s.faultIp

/-- The host's inputs are as before: no operation writes `IN` (spec/20_memory.md R41). -/
def SameHost (s t : State) : Prop := t.inp = s.inp ∧ t.rst = s.rst ∧ t.start = s.start

/-- The pixel register, the cache, the pixel counter and `OUT` are as before. -/
def SamePixels (s t : State) : Prop :=
  t.px = s.px ∧ t.cache = s.cache ∧ t.opx = s.opx ∧ t.out = s.out

/-- Everything a chunk of `n` bytes does that yields pixel `p` and writes it `run` times
(spec/41_dispatch_and_commit.md R110, R112), and everything it leaves alone. `OUT` is described byte by
byte: component `j` of written pixel `k` stands at `(opx + k) * channels + j`, and every other address
reads as before. -/
structure ChunkDone (s t : State) (n : Nat) (p : Pixel) (run : Nat) : Prop where
  px : t.px = p
  ip : t.ip = s.ip + n
  opx : t.opx.toNat = s.opx.toNat + run
  phase : t.phase = if s.opx.toNat + run = s.width.toNat * s.height.toNat then .trailer else .chunk
  cache : ∀ i : Fin 64, t.cache[i] = if i = pixelHash p then p else s.cache[i]
  stored : ∀ k < run, ∀ j < s.channels.toNat,
    readByte t.out (outAddr s + k * s.channels.toNat + j) = [p.r, p.g, p.b, p.a][j]?
  kept : ∀ a, a < outAddr s ∨ outAddr s + run * s.channels.toNat ≤ a →
    readByte t.out a = readByte s.out a
  header : SameHeader s t
  fault : SameFault s t
  host : SameHost s t

/-- Everything fault entry does in an operation of `n` bytes that began at `s` (spec/60_exceptions.md
R188), the header registers apart, which `HDR` has latched by then. -/
structure FaultTaken (s t : State) (code : FaultCode) (n : Nat) : Prop where
  code : t.faultCode = code
  faultIp : t.faultIp = s.ip
  ip : t.ip = s.ip + n
  phase : t.phase = .fault
  pixels : SamePixels s t
  host : SameHost s t

/-! ## Whole streams -/

/-- The bytes of a list of operations (the grammar of spec/30_encoding.md R70). -/
def streamBytes (l : List Instr) : List Byte := l.flatMap encode

/-- The stream stands in `IN` from offset 0. -/
def HoldsStream (s : State) (bs : List Byte) : Prop :=
  ∀ k (b : Byte), bs[k]? = some b → readByte s.inp k = some b

/-- The pixel a chunk yields, as a function of the pixel before it and the cache alone, with the deltas
in their 8-bit forms (spec/44_delta.md R150, R151 "Equivalent form in 8-bit unsigned arithmetic"). -/
def refPixel (i : Instr) (px : Pixel) (cache : Nat → Pixel) : Pixel :=
  match i with
  | .rgb r g b => ⟨r, g, b, px.a⟩
  | .rgba r g b a => ⟨r, g, b, a⟩
  | .index v => cache v.toNat
  | .diff fr fg fb =>
    ⟨px.r + fr.setWidth 8 + 254, px.g + fg.setWidth 8 + 254, px.b + fb.setWidth 8 + 254, px.a⟩
  | .luma fg frg fbg =>
    ⟨px.r + fg.setWidth 8 + frg.setWidth 8 + 216, px.g + fg.setWidth 8 + 224,
      px.b + fg.setWidth 8 + fbg.setWidth 8 + 216, px.a⟩
  | .run _ => px
  | .hdr .. => px
  | .endOp .. => px

/-- The pixels a list of chunks decodes to, by the source's loop (spec/41_dispatch_and_commit.md, quoted
at its head), over a pixel and a cache given as a function: no state, no memory, no counters. -/
def refPixels : List Instr → Pixel → (Nat → Pixel) → List Pixel
  | [], _, _ => []
  | i :: l, px, cache =>
    let q := refPixel i px cache
    let slot := (3 * q.r.toNat + 5 * q.g.toNat + 7 * q.b.toNat + 11 * q.a.toNat) % 64
    List.replicate (chunkRun i) q ++ refPixels l q (fun k => if k = slot then q else cache k)

/-! ## Invariants of a run -/

/-- A memory that holds exactly the addresses `0 .. n-1`, in order. -/
def FilledTo (m : Memory) (n : Nat) : Prop := m.map Prod.fst = List.range n

/-- The cache invariant (spec/10_state.md R15). -/
def CacheInv (s : State) : Prop :=
  ∀ i : Fin 64, s.cache[i] = Config.zeroPixel ∨ pixelHash s.cache[i] = i

/-- The invariants of an operation boundary (spec/10_state.md R27, with R17 and R25), for a stream that
is `IN[0..L-1]` (R24). -/
structure Boundary (s : State) : Prop where
  inp : FilledTo s.inp s.inp.length
  out : FilledTo s.out (s.opx.toNat * s.channels.toNat)
  cache : CacheInv s
  room : s.opx.toNat ≤ s.width.toNat * s.height.toNat
  hdr : s.phase = .hdr → s.ip = 0 ∧ s.opx = 0 ∧ s.out = [] ∧ s.px = Config.resetPixel ∧
    s.cache = Vector.replicate 64 Config.zeroPixel
  chunk : s.phase = .chunk → (s.channels = 3 ∨ s.channels = 4) ∧ 14 ≤ s.ip ∧
    s.opx.toNat < s.width.toNat * s.height.toNat
  trailer : s.phase = .trailer → (s.channels = 3 ∨ s.channels = 4) ∧
    s.opx.toNat = s.width.toNat * s.height.toNat
  done : s.phase = .done → s.opx.toNat = s.width.toNat * s.height.toNat ∧ s.faultCode = .none ∧
    s.out.length = s.width.toNat * s.height.toNat * s.channels.toNat
  fault : s.phase = .fault → s.faultCode = .badMagic ∨ s.faultCode = .badTrailer ∨
    s.faultCode = .badChannels ∨ s.faultCode = .runOverflow
  noFault : s.phase ≠ .fault → s.faultCode = .none ∧ s.faultIp = 0

/-- The invariants of the byte-serial decoder between two cycles: its boundary state is one, with no
reset line pending and at most the whole stream consumed; no operation whose bytes have all arrived is
waiting to be done unless its pixels are being transferred; an offered pixel is a waiting one. -/
structure PortBoundary (p : PortState) : Prop where
  core : Boundary p.core
  quiet : Quiet p.core
  consumed : p.core.ip ≤ p.core.inp.length
  collecting : p.left = 0 → p.offering = false ∧ ∀ i, fetch p.core ≠ .op i
  emitting : 0 < p.left → ∃ t, step p.core = .next t ∧ p.left ≤ t.opx.toNat - p.core.opx.toNat ∧
    t.ip = p.core.inp.length

/-! ## How a run ends -/

/-- The image of a run (spec/60_exceptions.md R198; spec/20_memory.md R57): the bytes of `OUT`, only
after `done`. -/
def image (s : State) : Option (List Byte) :=
  if s.phase = .done then some (s.out.map Prod.snd) else none

/-- The four outcomes of a run (spec/60_exceptions.md R192). -/
inductive RunEnd where
  | done
  | fault
  | stuckOnInput
  | stuckOnOutput
deriving DecidableEq, Repr

/-- The outcome of a run of the byte-serial decoder in which the host does nothing more: offers no byte,
accepts no pixel, asserts no reset. None where the decoder would still go on by itself. -/
def runEnd (p : PortState) : Option RunEnd :=
  if 0 < p.left then some .stuckOnOutput
  else
    match fetch p.core with
    | .idle => if p.core.phase = .done then some .done else some .fault
    | .stuck => some .stuckOnInput
    | .op _ => none

/-! ## Fairness -/

/-- The fairness of spec/70_reset_and_hazards.md R220 and of "within finite time" in spec/20_memory.md R54:
again and again there is a cycle in which the decoder would be ready for a byte and the host offers one
(as there is where each happens again and again and an offered byte stays offered until it is
transferred), one in which the decoder would offer a pixel, and one in which the host accepts one. -/
def FairTurns (turns : Nat → Turn) : Prop :=
  ∀ n, (∃ m ≥ n, (turns m).pace.inNow = true ∧ (turns m).offer = true) ∧
    (∃ m ≥ n, (turns m).pace.outNow = true) ∧ (∃ m ≥ n, (turns m).accept = true)

/-- The reset state with a whole stream in `IN`. -/
def onStream (stream : List Byte) : State := { State.reset with inp := streamMemory stream }

/-- The byte-serial decoder stands at an operation boundary, at model state `t` but for the bytes not yet
transferred. -/
def Reached (p : PortState) (t : State) : Prop := p.left = 0 ∧ p.core = { t with inp := p.core.inp }

end Sys2Proof.Machine
end

