-- ==== Sys2Proof/Certificates/Slice0/Obligations.lean ====
section
/-! DEFINITION. The statements for the provers. Each docstring names the rules of spec/ it formalises. -/

open Sys2Proof Sys2Proof.Machine

/-! ## Encoding -/

/-- Words written out from the formats of spec/30_encoding.md R72 to R74 decode to what they stand for. -/
def Obligations.DecodesSpecWords : Prop :=
  decode .chunk [0xFE, 0x80, 0x40, 0x20] = .ok (.rgb 128 64 32, []) ∧
  decode .chunk [0xFF, 1, 2, 3, 4] = .ok (.rgba 1 2 3 4, []) ∧
  decode .chunk [0x15] = .ok (.index 21, []) ∧
  decode .chunk [0x64] = .ok (.diff 2 1 0, []) ∧
  decode .chunk [0xA0, 0x0F] = .ok (.luma 32 0 15, []) ∧
  decode .chunk [0xFD] = .ok (.run 61, []) ∧
  decode .header [0x71, 0x6F, 0x69, 0x66, 0, 0, 1, 0, 0, 0, 0, 2, 3, 7] =
    .ok (.hdr 0x716F6966 256 2 3 7, []) ∧
  decode .trailer [0, 0, 0, 0, 0, 0, 0, 1] = .ok (.endOp 1, [])

/-- Decoding the bytes of any operation the stream can hold, whatever follows them, gives it back with
every field, and the rest (R71 to R75). -/
def Obligations.DecodeEncodeRoundTrip : Prop :=
  ∀ (i : Instr) (rest : List Byte), i.wellFormed = true →
    decode i.record (encode i ++ rest) = .ok (i, rest)

/-- Whatever decodes is the encoding of what it decodes to, of the record kind asked for, and an
operation the stream can hold: no bit is dropped and no two byte strings share a meaning (R73, R82). -/
def Obligations.EncodeDecodeRoundTrip : Prop :=
  ∀ (r : Record) (bs rest : List Byte) (i : Instr), decode r bs = .ok (i, rest) →
    encode i ++ rest = bs ∧ i.record = r ∧ i.wellFormed = true ∧ (encode i).length = i.length

/-- The opcode map by value of `b0` (R77): each range of control bytes, and its fields, with the bytes
after it free. -/
def Obligations.ChunkOpcodeMap : Prop :=
  ∀ (b0 b1 b2 b3 b4 : Byte) (rest : List Byte),
    (b0.toNat ≤ 0x3F → ∃ v : BitVec 6, v.toNat = b0.toNat ∧
      decode .chunk (b0 :: b1 :: b2 :: b3 :: b4 :: rest) =
        .ok (.index v, b1 :: b2 :: b3 :: b4 :: rest)) ∧
    (0x40 ≤ b0.toNat → b0.toNat ≤ 0x7F → ∃ fr fg fb : BitVec 2,
      b0.toNat = 0x40 + fr.toNat * 16 + fg.toNat * 4 + fb.toNat ∧
      decode .chunk (b0 :: b1 :: b2 :: b3 :: b4 :: rest) =
        .ok (.diff fr fg fb, b1 :: b2 :: b3 :: b4 :: rest)) ∧
    (0x80 ≤ b0.toNat → b0.toNat ≤ 0xBF → ∃ (fg : BitVec 6) (frg fbg : BitVec 4),
      b0.toNat = 0x80 + fg.toNat ∧ b1.toNat = frg.toNat * 16 + fbg.toNat ∧
      decode .chunk (b0 :: b1 :: b2 :: b3 :: b4 :: rest) =
        .ok (.luma fg frg fbg, b2 :: b3 :: b4 :: rest)) ∧
    (0xC0 ≤ b0.toNat → b0.toNat ≤ 0xFD → ∃ v : BitVec 6, b0.toNat = 0xC0 + v.toNat ∧
      1 ≤ chunkRun (.run v) ∧ chunkRun (.run v) ≤ 62 ∧ chunkRun (.run v) = v.toNat + 1 ∧
      decode .chunk (b0 :: b1 :: b2 :: b3 :: b4 :: rest) =
        .ok (.run v, b1 :: b2 :: b3 :: b4 :: rest)) ∧
    (b0.toNat = 0xFE → decode .chunk (b0 :: b1 :: b2 :: b3 :: b4 :: rest) =
      .ok (.rgb b1 b2 b3, b4 :: rest)) ∧
    (b0.toNat = 0xFF → decode .chunk (b0 :: b1 :: b2 :: b3 :: b4 :: rest) =
      .ok (.rgba b1 b2 b3 b4, rest))

/-- Length determination (R76): a chunk's length is a function of its first byte, the bytes after it may
be any; header and trailer have 14 and 8 bytes. That too few bytes (R43) decode to a refusal that names the
record, and that this is the only refusal, is the model's reading (log entry 18, DEDUCED). -/
def Obligations.LengthFromFirstByte : Prop :=
  (∀ (b0 : Byte) (bs : List Byte),
    (bytesNeeded b0 ≤ (b0 :: bs).length → ∃ i, i.length = bytesNeeded b0 ∧
      decode .chunk (b0 :: bs) = .ok (i, (b0 :: bs).drop (bytesNeeded b0))) ∧
    ((b0 :: bs).length < bytesNeeded b0 → decode .chunk (b0 :: bs) = .error (.truncated .chunk))) ∧
  (∀ bs : List Byte,
    (14 ≤ bs.length → ∃ i, i.length = 14 ∧ decode .header bs = .ok (i, bs.drop 14)) ∧
    (bs.length < 14 → decode .header bs = .error (.truncated .header)) ∧
    (8 ≤ bs.length → ∃ i, i.length = 8 ∧ decode .trailer bs = .ok (i, bs.drop 8)) ∧
    (bs.length < 8 → decode .trailer bs = .error (.truncated .trailer)))

/-- The line the disassembler writes for an operation assembles to that operation's bytes (R82). -/
def Obligations.AssemblerRoundTrip : Prop :=
  ∀ i : Instr, i.wellFormed = true → assemble (disassemble i) = some (encode i)

/-- The assembler is one-to-one (R82): two lines with the same bytes are the same line, `.byte` apart. -/
def Obligations.AssemblerOneToOne : Prop :=
  ∀ (l m : AsmLine) (bs : List Byte), (∀ xs, l ≠ .bytes xs) → (∀ xs, m ≠ .bytes xs) →
    assemble l = some bs → assemble m = some bs → l = m

/-! ## The step -/

/-- When the bytes at `ip` are those of an operation of the kind the phase reads, and no reset line is
sampled, the step is that operation's execution and nothing more (R8, R110, R111). -/
def Obligations.StepRunsDecodedInstruction : Prop :=
  ∀ (s : State) (i : Instr), Quiet s → i.wellFormed = true → recordOf s.phase = some i.record →
    HoldsAt s i → step s = exec i s

/-- The decoder is stuck on input exactly where a byte of the next record is missing (R43): for a chunk
the record is as long as its control byte says. That a stuck step is a stop of the model is its own
choice (log entry 6). -/
def Obligations.StuckExactlyOnMissingByte : Prop :=
  ∀ s : State, Quiet s →
    (step s = .fault .stuckOnInput ↔ ∃ r, recordOf s.phase = some r ∧ Missing s r)

/-- At an operation boundary of a run a step either has a next state or is stuck on input; and in no
state whatever does a step call a meaning outside its phase or meet an operation without a meaning.
Called by itself outside the precondition of R100, R110 or R170, a meaning stops by name: the model's
choice (log entries 7 and 8). -/
def Obligations.StepStopsOnlyOnMissingInput : Prop :=
  (∀ s : State, Boundary s → (∃ t, step s = .next t) ∨ step s = .fault .stuckOnInput) ∧
  (∀ s : State, step s ≠ .fault .wrongPhase) ∧
  (∀ (s : State) (r : Refusal), step s ≠ .refused r) ∧
  (∀ (s : State) (i : Instr), s.phase ≠ phaseOf i.record → exec i s = .fault .wrongPhase) ∧
  (∀ (s : State) (i : Instr), i.record = .chunk → i ≠ .run 63 → s.phase = .chunk →
    s.channels ≠ 3 → s.channels ≠ 4 → exec i s = .fault .illegalChannels)

/-- No return and no nesting (R189): no operation leaves `FAULT`, a step there changes nothing (so no
second fault is taken, nothing is read or written), and `rst` or `start` discards everything and begins
a new decode call. The model's own in it: that an operation called there by itself stops (log entry 7),
that a step there answers the same state (log entry 9), and that a restart clears the two lines (log
entry 4). -/
def Obligations.FaultPhaseIsSticky : Prop :=
  ∀ s : State, s.phase = .fault →
    (∀ i t, exec i s ≠ .next t) ∧
    (Quiet s → step s = .next s) ∧
    (s.rst = true ∨ s.start = true → ∃ m, step s = .next { State.reset with inp := m })

/-- After `DONE` the decoder reads nothing more and changes nothing, whatever bytes follow the trailer
(R172), until `rst` or `start`. That a step there answers the same state as a next state is the model's
reading (log entry 9, DEDUCED): the spec names no step there. -/
def Obligations.DoneConsumesNothing : Prop :=
  ∀ (s : State) (m : Memory), s.phase = .done → Quiet s →
    step { s with inp := m } = .next { s with inp := m }

/-- The reset values (R26): whatever the state, a sampled `rst` or `start` gives them all, the port
decoder's buffer and run counter are empty, and `State.reset` has them. -/
def Obligations.ResetValues : Prop :=
  (∀ s : State, s.rst = true ∨ s.start = true → ∃ t, step s = .next t ∧
    t.px = ⟨0, 0, 0, 255⟩ ∧ (∀ k : Fin 64, t.cache[k] = ⟨0, 0, 0, 0⟩) ∧ t.ip = 0 ∧ t.opx = 0 ∧
    t.out = [] ∧ t.phase = .hdr ∧ t.width = 0 ∧ t.height = 0 ∧ t.channels = 0 ∧ t.colorspace = 0 ∧
    t.faultCode = .none ∧ t.faultIp = 0) ∧
  (State.reset.px = ⟨0, 0, 0, 255⟩ ∧ (∀ k : Fin 64, State.reset.cache[k] = ⟨0, 0, 0, 0⟩) ∧
    State.reset.ip = 0 ∧ State.reset.opx = 0 ∧ State.reset.out = [] ∧ State.reset.phase = .hdr ∧
    State.reset.width = 0 ∧ State.reset.height = 0 ∧ State.reset.channels = 0 ∧
    State.reset.colorspace = 0 ∧ State.reset.faultCode = .none ∧ State.reset.faultIp = 0) ∧
  (∀ (pace : Pace) (i : PortIn) (p : PortState), i.rst = true ∨ i.start = true →
    (tick pace i p).core = State.reset ∧ (tick pace i p).core.inp = [] ∧ (tick pace i p).left = 0)

/-! ## What each operation does -/

/-- `HDR` with the right magic and 3 or 4 channels completes (R100, R103, R104): the four registers
latched, `ip` past the record, and the first phase by the pixel count; nothing else changes. -/
def Obligations.HdrCompletes : Prop :=
  ∀ (s : State) (w h : Word32) (c cs : Byte), s.phase = .hdr → (c = 3 ∨ c = 4) →
    exec (.hdr 0x716F6966 w h c cs) s = .next { s with
      width := w, height := h, channels := c, colorspace := cs, ip := s.ip + 14,
      phase := if s.opx.toNat = w.toNat * h.toNat then .trailer else .chunk }

/-- Magic check (R101): a difference in any bit of the four bytes raises `BAD_MAGIC`, whatever the
channel count; the header registers are latched all the same. -/
def Obligations.HdrBadMagic : Prop :=
  ∀ (s : State) (m w h : Word32) (c cs : Byte), s.phase = .hdr → m ≠ 0x716F6966 →
    exec (.hdr m w h c cs) s = .next { s with
      width := w, height := h, channels := c, colorspace := cs, ip := s.ip + 14,
      phase := .fault, faultCode := .badMagic, faultIp := s.ip }

/-- Channel check (R102): any value but 3 and 4 raises `BAD_CHANNELS`; 3 and 4 raise nothing. -/
def Obligations.HdrChannelCheck : Prop :=
  ∀ (s : State) (w h : Word32) (c cs : Byte), s.phase = .hdr →
    (c ≠ 3 → c ≠ 4 → exec (.hdr 0x716F6966 w h c cs) s = .next { s with
      width := w, height := h, channels := c, colorspace := cs, ip := s.ip + 14,
      phase := .fault, faultCode := .badChannels, faultIp := s.ip }) ∧
    (c = 3 ∨ c = 4 → ∃ t, exec (.hdr 0x716F6966 w h c cs) s = .next t ∧ t.phase ≠ .fault ∧
      t.faultCode = s.faultCode)

/-- `RGB` (R130): the three bytes replace r, g, b, alpha is kept, one pixel is written. -/
def Obligations.RgbResult : Prop :=
  ∀ (s : State) (r g b : Byte), ChunkReady s → Fits s 1 →
    ∃ t, exec (.rgb r g b) s = .next t ∧ ChunkDone s t 4 ⟨r, g, b, s.px.a⟩ 1

/-- `RGBA` (R131): all four components, in both channel modes. -/
def Obligations.RgbaResult : Prop :=
  ∀ (s : State) (r g b a : Byte), ChunkReady s → Fits s 1 →
    ∃ t, exec (.rgba r g b a) s = .next t ∧ ChunkDone s t 5 ⟨r, g, b, a⟩ 1

/-- `INDEX` (R140): all four components of the slot, as the state before holds it. -/
def Obligations.IndexResult : Prop :=
  ∀ (s : State) (v : BitVec 6) (k : Fin 64), ChunkReady s → Fits s 1 → k.val = v.toNat →
    ∃ t, exec (.index v) s = .next t ∧ ChunkDone s t 1 s.cache[k] 1

/-- `DIFF` (R150): each colour component is the old one plus its field minus 2, modulo 256; alpha kept. -/
def Obligations.DiffResult : Prop :=
  ∀ (s : State) (fr fg fb : BitVec 2), ChunkReady s → Fits s 1 →
    ∃ t p, exec (.diff fr fg fb) s = .next t ∧ ChunkDone s t 1 p 1 ∧
      (p.r.toNat : Int) = ((s.px.r.toNat : Int) + ((fr.toNat : Int) - 2)) % 256 ∧
      (p.g.toNat : Int) = ((s.px.g.toNat : Int) + ((fg.toNat : Int) - 2)) % 256 ∧
      (p.b.toNat : Int) = ((s.px.b.toNat : Int) + ((fb.toNat : Int) - 2)) % 256 ∧
      p.a = s.px.a

/-- `LUMA` (R151): green plus its field minus 32; red and blue plus their fields minus 8 plus the integer
green delta; modulo 256; alpha kept. -/
def Obligations.LumaResult : Prop :=
  ∀ (s : State) (fg : BitVec 6) (frg fbg : BitVec 4), ChunkReady s → Fits s 1 →
    ∃ t p, exec (.luma fg frg fbg) s = .next t ∧ ChunkDone s t 2 p 1 ∧
      (p.g.toNat : Int) = ((s.px.g.toNat : Int) + ((fg.toNat : Int) - 32)) % 256 ∧
      (p.r.toNat : Int) =
        ((s.px.r.toNat : Int) + (((frg.toNat : Int) - 8) + ((fg.toNat : Int) - 32))) % 256 ∧
      (p.b.toNat : Int) =
        ((s.px.b.toNat : Int) + (((fbg.toNat : Int) - 8) + ((fg.toNat : Int) - 32))) % 256 ∧
      p.a = s.px.a

/-- `RUN` (R160): the unchanged pixel, written payload + 1 times, the cache written once. -/
def Obligations.RunResult : Prop :=
  ∀ (s : State) (v : BitVec 6), ChunkReady s → v.toNat ≤ 61 → Fits s (v.toNat + 1) →
    ∃ t, exec (.run v) s = .next t ∧ ChunkDone s t 1 s.px (v.toNat + 1)

/-- A run that does not fit (R162): `RUN_OVERFLOW`, no pixel written, `px`, `cache` and `opx` kept. In the
states no run reaches in which `opx > P` the hypothesis holds too (`P - opx` is then 0), and the fault is
the model's choice (log entry 13). -/
def Obligations.RunOverflowFaults : Prop :=
  ∀ (s : State) (v : BitVec 6), ChunkReady s → v.toNat ≤ 61 →
    s.width.toNat * s.height.toNat - s.opx.toNat < v.toNat + 1 →
    exec (.run v) s = .next { s with
      ip := s.ip + 1, phase := .fault, faultCode := .runOverflow, faultIp := s.ip }

/-- The source's payload check (R161): `execute` of `RUN` raises `BAD_RUN_PAYLOAD` on payload 63, and
nothing the dispatcher reads is a `RUN` with payload 62 or 63. -/
def Obligations.RunPayloadCheckIsDead : Prop :=
  (∀ s : State, s.phase = .chunk → exec (.run 63) s = .next { s with
    ip := s.ip + 1, phase := .fault, faultCode := .badRunPayload, faultIp := s.ip }) ∧
  (∀ (r : Record) (bs rest : List Byte) (v : BitVec 6),
    decode r bs = .ok (.run v, rest) → v.toNat ≤ 61)

/-- `END` (R170): the eight bytes are consumed; the trailer ends the run, anything else is `BAD_TRAILER`;
nothing else changes. -/
def Obligations.EndResult : Prop :=
  ∀ s : State, s.phase = .trailer →
    exec (.endOp 1) s = .next { s with ip := s.ip + 8, phase := .done } ∧
    (∀ bytes : BitVec 64, bytes ≠ 1 → exec (.endOp bytes) s = .next { s with
      ip := s.ip + 8, phase := .fault, faultCode := .badTrailer, faultIp := s.ip })

/-! ## Frames -/

/-- What `HDR` leaves unchanged whenever it has a next state (R100): the pixel register, the cache, the
pixel counter and every byte of `OUT`; and the fault registers where it takes no fault. -/
def Obligations.HdrFrame : Prop :=
  ∀ (s t : State) (m w h : Word32) (c cs : Byte), exec (.hdr m w h c cs) s = .next t →
    t.px = s.px ∧ t.cache = s.cache ∧ t.opx = s.opx ∧
    (∀ a, readByte t.out a = readByte s.out a) ∧ SameHost s t ∧
    (t.phase ≠ .fault → SameFault s t)

/-- What `END` leaves unchanged whenever it has a next state (R170). -/
def Obligations.EndFrame : Prop :=
  ∀ (s t : State) (bytes : BitVec 64), exec (.endOp bytes) s = .next t →
    t.px = s.px ∧ t.cache = s.cache ∧ t.opx = s.opx ∧ SameHeader s t ∧
    (∀ a, readByte t.out a = readByte s.out a) ∧ SameHost s t ∧
    (t.phase ≠ .fault → SameFault s t)

/-- What the six chunks leave unchanged whenever they have a next state (R110, R112): the header
registers, the stream, every cache slot but the one of the new pixel, and every byte of `OUT` outside
the pixels stored at `opx * channels`; without a fault also the fault registers; with a fault all but
what fault entry writes. -/
def Obligations.ChunkFrame : Prop :=
  ∀ (s t : State) (i : Instr), i.record = .chunk → exec i s = .next t →
    SameHeader s t ∧ SameHost s t ∧ t.ip = s.ip + i.length ∧
    (∀ k : Fin 64, k ≠ pixelHash t.px → t.cache[k] = s.cache[k]) ∧
    (∀ a, a < outAddr s ∨ outAddr s + chunkRun i * s.channels.toNat ≤ a →
      readByte t.out a = readByte s.out a) ∧
    (t.phase ≠ .fault → SameFault s t) ∧
    (t.phase = .fault → SamePixels s t)

/-! ## Faults and phases -/

/-- Fault entry (R188): an operation that faults writes the code, `fault_ip` with its own position, `ip`
past its bytes and the phase, and nothing else but the header registers `HDR` has latched. -/
def Obligations.FaultEntryExact : Prop :=
  ∀ (s t : State) (i : Instr), exec i s = .next t → t.phase = .fault →
    FaultTaken s t t.faultCode i.length ∧ t.faultCode ≠ .none ∧
    (∀ m w h c cs, i = .hdr m w h c cs →
      t.width = w ∧ t.height = h ∧ t.channels = c ∧ t.colorspace = cs) ∧
    (i.record ≠ .header → SameHeader s t)

/-- `next_phase()` (R115): `TRAILER` if `opx = P` and `CHUNK` otherwise, evaluated on the state `HDR` or
the chunk's commit leaves. -/
def Obligations.NextPhaseByPixelCount : Prop :=
  ∀ (s t : State) (i : Instr), i.record ≠ .trailer → exec i s = .next t → t.phase ≠ .fault →
    t.phase = if t.opx.toNat = t.width.toNat * t.height.toNat then .trailer else .chunk

/-- Codes 3 and 4 cannot arise (R184, R185): no step leaves either in `fault_code` unless it stood there
before. -/
def Obligations.UnreachableFaultCodes : Prop :=
  ∀ s t : State, step s = .next t → t.faultCode = .badRunPayload ∨ t.faultCode = .invalidOp →
    s.faultCode = t.faultCode

/-- The whole transition relation between phases (R18, R117), with the fault each edge to `FAULT`
takes. -/
def Obligations.PhaseTransitions : Prop :=
  ∀ s t : State, step s = .next t →
    (s.rst = true ∨ s.start = true → t.phase = .hdr) ∧
    (Quiet s →
      (s.phase = .hdr →
        (t.phase = .chunk ∧ t.opx.toNat ≠ t.width.toNat * t.height.toNat) ∨
        (t.phase = .trailer ∧ t.opx.toNat = t.width.toNat * t.height.toNat) ∨
        (t.phase = .fault ∧ (t.faultCode = .badMagic ∨ t.faultCode = .badChannels))) ∧
      (s.phase = .chunk →
        (t.phase = .chunk ∧ t.opx.toNat ≠ t.width.toNat * t.height.toNat) ∨
        (t.phase = .trailer ∧ t.opx.toNat = t.width.toNat * t.height.toNat) ∨
        (t.phase = .fault ∧ t.faultCode = .runOverflow)) ∧
      (s.phase = .trailer →
        t.phase = .done ∨ (t.phase = .fault ∧ t.faultCode = .badTrailer)) ∧
      (s.phase = .done ∨ s.phase = .fault → t = s))

/-! ## Invariants -/

/-- The reset state is an operation boundary (R26, R27). -/
def Obligations.ResetIsBoundary : Prop := Boundary State.reset

/-- Every step, operation or restart, leads from an operation boundary to one (R27). -/
def Obligations.StepKeepsBoundary : Prop :=
  ∀ s t : State, Boundary s → step s = .next t → Boundary t

/-- The cache invariant alone is kept by every step from any state that has it (R15). -/
def Obligations.StepKeepsCacheInvariant : Prop :=
  ∀ s t : State, CacheInv s → step s = .next t → CacheInv t

/-- Both memories keep their canonical form in every step from any state. The form is the model's own
choice (log entry 2). -/
def Obligations.StepKeepsCanonicalMemory : Prop :=
  ∀ s t : State, Memory.wf s.out = true → Memory.wf s.inp = true → step s = .next t →
    Memory.wf t.out = true ∧ Memory.wf t.inp = true

/-- The header registers are written by `HDR` only (R19). -/
def Obligations.HeaderRegistersWrittenOnce : Prop :=
  ∀ s t : State, Quiet s → s.phase ≠ .hdr → step s = .next t → SameHeader s t

/-- The stream is read at `ip` only, in order, and never written (R16, R41): `ip` stays, in the final
phases, or moves by the length of the operation read there. -/
def Obligations.InputReadInOrder : Prop :=
  ∀ s t : State, Quiet s → step s = .next t → t.inp = s.inp ∧
    ((recordOf s.phase = none ∧ t.ip = s.ip) ∨
      ∃ i, recordOf s.phase = some i.record ∧ i.wellFormed = true ∧ HoldsAt s i ∧
        t.ip = s.ip + i.length)

/-- `OUT` is append-only (R25): a step from an operation boundary keeps every byte written before and
appends `channels` bytes for each pixel counted. -/
def Obligations.OutputAppendOnly : Prop :=
  ∀ s t : State, Boundary s → Quiet s → step s = .next t → s.opx.toNat ≤ t.opx.toNat ∧
    ∃ new, t.out = s.out ++ new ∧
      new.length = (t.opx.toNat - s.opx.toNat) * t.channels.toNat

/-- A step writes at most the cache slot of the pixel it leaves (R13, R217). -/
def Obligations.CacheWritesOneSlot : Prop :=
  ∀ s t : State, Quiet s → step s = .next t → ∀ k : Fin 64, k ≠ pixelHash t.px →
    t.cache[k] = s.cache[k]

/-- Alpha under the chunks (R152): only `RGBA` and `INDEX` change it, and `DIFF` and `LUMA` do not read
it: with another alpha they give the same colours. -/
def Obligations.AlphaOnlyByRgbaAndIndex : Prop :=
  (∀ (s t : State) (i : Instr), exec i s = .next t → (∀ r g b a, i ≠ .rgba r g b a) →
    (∀ v, i ≠ .index v) → t.px.a = s.px.a) ∧
  (∀ (s t : State) (a : Byte) (i : Instr),
    (∃ fr fg fb, i = .diff fr fg fb) ∨ (∃ fg frg fbg, i = .luma fg frg fbg) →
    exec i s = .next t →
    ∃ t', exec i { s with px := { s.px with a := a } } = .next t' ∧
      t'.px = { t.px with a := a })

/-! ## Values -/

/-- The slot index (R14): below 64, the sum exact and at most 6630, the same in 8-bit wrapping
arithmetic, and the rule's examples. -/
def Obligations.SlotIndexLaw : Prop :=
  (∀ p : Pixel,
    3 * p.r.toNat + 5 * p.g.toNat + 7 * p.b.toNat + 11 * p.a.toNat ≤ 6630 ∧
    (pixelHash p).val =
      (3 * p.r.toNat + 5 * p.g.toNat + 7 * p.b.toNat + 11 * p.a.toNat) % 64 ∧
    (pixelHash p).val = (3 * p.r + 5 * p.g + 7 * p.b + 11 * p.a : BitVec 8).toNat % 64 ∧
    (pixelHash p).val ≤ 63) ∧
  (pixelHash ⟨0, 0, 0, 0⟩).val = 0 ∧ (pixelHash ⟨0, 0, 0, 255⟩).val = 53 ∧
  (pixelHash ⟨255, 255, 255, 255⟩).val = 38 ∧ (pixelHash ⟨2, 1, 0, 255⟩).val = 0

/-- The delta chunks in 8-bit arithmetic (R150, R151 "Equivalent form"). -/
def Obligations.DeltaEightBitForms : Prop :=
  (∀ (s t : State) (fr fg fb : BitVec 2), exec (.diff fr fg fb) s = .next t → t.phase ≠ .fault →
    t.px = ⟨s.px.r + fr.setWidth 8 + 254, s.px.g + fg.setWidth 8 + 254,
      s.px.b + fb.setWidth 8 + 254, s.px.a⟩) ∧
  (∀ (s t : State) (fg : BitVec 6) (frg fbg : BitVec 4), exec (.luma fg frg fbg) s = .next t →
    t.phase ≠ .fault →
    t.px = ⟨s.px.r + fg.setWidth 8 + frg.setWidth 8 + 216, s.px.g + fg.setWidth 8 + 224,
      s.px.b + fg.setWidth 8 + fbg.setWidth 8 + 216, s.px.a⟩)

/-- The cases of `INDEX` (R141, 1 to 3): a slot that holds a pixel of its own hash leaves the cache as it
is; an empty slot yields `(0,0,0,0)` and overwrites slot 0 with it, whatever slot 0 held. -/
def Obligations.IndexCacheCases : Prop :=
  ∀ (s : State) (v : BitVec 6) (k : Fin 64), ChunkReady s → Fits s 1 → k.val = v.toNat →
    (pixelHash s.cache[k] = k → ∃ t, exec (.index v) s = .next t ∧ t.px = s.cache[k] ∧
      t.cache = s.cache) ∧
    (s.cache[k] = ⟨0, 0, 0, 0⟩ → ∃ t, exec (.index v) s = .next t ∧ t.px = ⟨0, 0, 0, 0⟩ ∧
      t.cache[(0 : Fin 64)] = ⟨0, 0, 0, 0⟩ ∧
      ∀ j : Fin 64, j ≠ 0 → t.cache[j] = s.cache[j])

/-- A `RUN` writes the cache too (R114): as the first chunk after reset it sets slot 53, which the reset
left empty, to the reset pixel. -/
def Obligations.FirstRunWritesSlot53 : Prop :=
  ∀ (s : State) (v : BitVec 6), ChunkReady s → v.toNat ≤ 61 → Fits s (v.toNat + 1) →
    s.px = ⟨0, 0, 0, 255⟩ →
    ∃ t, exec (.run v) s = .next t ∧ t.cache[(53 : Fin 64)] = ⟨0, 0, 0, 255⟩

/-- The status flags (R21): each flag's value, `done` and `fault` never both, and `fault` stays until a
reset. -/
def Obligations.StatusFlags : Prop :=
  (∀ s : State,
    (doneFlag s = true ↔ s.phase = .done) ∧
    (faultFlag s = true ↔ s.phase = .fault) ∧
    (busyFlag s = true ↔ s.phase = .hdr ∨ s.phase = .chunk ∨ s.phase = .trailer) ∧
    (hdrValidFlag s = true ↔ s.phase = .chunk ∨ s.phase = .trailer ∨ s.phase = .done ∨
      (s.phase = .fault ∧ (s.faultCode = .badTrailer ∨ s.faultCode = .runOverflow))) ∧
    ¬ (doneFlag s = true ∧ faultFlag s = true)) ∧
  (∀ s t : State, faultFlag s = true → Quiet s → step s = .next t → faultFlag t = true)

/-- Pixel `(x, y)` of the image (R42): its bytes lie inside the image, no two components of pixels share an
address, and rows follow each other without padding. A chunk that does not fault stores the components
of its pixel at the addresses of the pixel indices `opx .. opx + run - 1`, the first of them `outAddr`; at
an operation boundary exactly the pixels of index below `opx` stand in `OUT`; and at `DONE` all do. -/
def Obligations.PixelLayout : Prop :=
  (∀ (s : State) (x y x' y' j j' : Nat),
    x < s.width.toNat → y < s.height.toNat → x' < s.width.toNat → y' < s.height.toNat →
    j < s.channels.toNat → j' < s.channels.toNat →
    pixelIndex s x y * s.channels.toNat + j < imageLength s ∧
    (pixelIndex s x y * s.channels.toNat + j = pixelIndex s x' y' * s.channels.toNat + j' →
      x = x' ∧ y = y' ∧ j = j') ∧
    (x + 1 = s.width.toNat → pixelIndex s 0 (y + 1) = pixelIndex s x y + 1)) ∧
  (∀ (s t : State) (i : Instr) (x y j : Nat), i.record = .chunk → exec i s = .next t →
    t.phase ≠ .fault → j < s.channels.toNat →
    (pixelIndex s x y = s.opx.toNat → outAddr s = pixelIndex s x y * s.channels.toNat) ∧
    (s.opx.toNat ≤ pixelIndex s x y → pixelIndex s x y < s.opx.toNat + chunkRun i →
      readByte t.out (pixelIndex s x y * s.channels.toNat + j) =
        [t.px.r, t.px.g, t.px.b, t.px.a][j]?)) ∧
  (∀ (s : State) (x y j : Nat), Boundary s → j < s.channels.toNat →
    ((readByte s.out (pixelIndex s x y * s.channels.toNat + j)).isSome = true ↔
      pixelIndex s x y < s.opx.toNat)) ∧
  (∀ (s : State) (a : Nat), Boundary s → s.phase = .done →
    ((readByte s.out a).isSome = true ↔ a < imageLength s))

/-! ## Progress and whole streams -/

/-- Every chunk adds at least 1 to `opx` and never passes `P`, or faults (R116). -/
def Obligations.ChunkMakesProgress : Prop :=
  ∀ s t : State, Boundary s → Quiet s → s.phase = .chunk → step s = .next t →
    t.phase = .fault ∨
      (s.opx.toNat < t.opx.toNat ∧ t.opx.toNat ≤ s.width.toNat * s.height.toNat)

/-- A run ends (R192, R220): within one step more than the stream has bytes it is done, faulted or stuck
on input. And the byte-serial decoder, in every fair run on a stream from reset, reaches every operation
boundary the model reaches on it (each operation whose bytes are there completes in finite time), comes to
an end in which it is done, faulted, or stuck on input with the whole stream transferred, and never
transfers more than `L` bytes or `P` pixels. The fairness is R220's and R54's (`FairTurns`; log
entry 11). -/
def Obligations.RunEndsWithinStream : Prop :=
  (∀ s : State, Boundary s → Quiet s → ∃ k ≤ s.inp.length + 1,
    stepN k s = .fault .stuckOnInput ∨
    ∃ t, stepN k s = .next t ∧ (t.phase = .done ∨ t.phase = .fault)) ∧
  (∀ (stream : List Byte) (turns : Nat → Turn), FairTurns turns →
    (∀ k t, stepN k (onStream stream) = .next t → ∃ n, Reached (serve stream turns n) t) ∧
    (∃ n, runEnd (serve stream turns n) = some .done ∨ runEnd (serve stream turns n) = some .fault ∨
      (runEnd (serve stream turns n) = some .stuckOnInput ∧
        (serve stream turns n).core.inp.length = stream.length)) ∧
    (∀ n, (serveEvents stream turns n).countP PortEvent.isByte ≤ stream.length ∧
      (serveEvents stream turns n).countP (fun e => !e.isByte) ≤
        (serve stream turns n).core.width.toNat * (serve stream turns n).core.height.toNat))

/-- A well-formed stream decodes (R70, R25, R192): in `IN[0..L-1]` (R24) a header, chunks whose pixels
number `P`, and the trailer, with any bytes after it, reach `DONE` after one step for each operation,
`ip` stands at the end of the trailer, and the image is the one the source's loop gives on the chunks
alone. -/
def Obligations.WellFormedStreamDecodes : Prop :=
  ∀ (s : State) (w h : Word32) (c cs : Byte) (chunks : List Instr),
    (∃ m, FilledTo m m.length ∧ s = { State.reset with inp := m }) → (c = 3 ∨ c = 4) →
    (∀ i ∈ chunks, i.record = .chunk ∧ i.wellFormed = true) →
    (chunks.map chunkRun).sum = w.toNat * h.toNat →
    HoldsStream s (streamBytes (.hdr 0x716F6966 w h c cs :: chunks ++ [.endOp 1])) →
    ∃ t, stepN (chunks.length + 2) s = .next t ∧ t.phase = .done ∧
      t.ip = 14 + (chunks.map Instr.length).sum + 8 ∧
      image t = some ((refPixels chunks ⟨0, 0, 0, 255⟩ (fun _ => ⟨0, 0, 0, 0⟩)).flatMap
        (fun p => if c = 3 then [p.r, p.g, p.b] else [p.r, p.g, p.b, p.a]))

/-! ## What cannot matter -/

/-- `colorspace` is latched and otherwise ignored (R104): every value is accepted, the status port shows
it, and two decodes that differ in it differ in nothing else. -/
def Obligations.ColorspaceIgnored : Prop :=
  (∀ (s t : State) (m w h : Word32) (c cs cs' : Byte), exec (.hdr m w h c cs) s = .next t →
    t.colorspace = cs ∧ (statusPorts t).stColorspace = cs ∧
    exec (.hdr m w h c cs') s = .next { t with colorspace := cs' }) ∧
  (∀ (s : State) (cs : Byte), Quiet s → s.phase ≠ .hdr →
    (∀ t, step s = .next t →
      step { s with colorspace := cs } = .next { t with colorspace := cs }) ∧
    (∀ f, step s = .fault f → step { s with colorspace := cs } = .fault f))

/-- `width` and `height` enter only through their product (R42): after the header, another pair with the
same product gives the same run. -/
def Obligations.OnlyPixelCountMatters : Prop :=
  ∀ (s : State) (w h : Word32), Quiet s → s.phase ≠ .hdr →
    w.toNat * h.toNat = s.width.toNat * s.height.toNat →
    (∀ t, step s = .next t →
      step { s with width := w, height := h } = .next { t with width := w, height := h }) ∧
    (∀ f, step s = .fault f → step { s with width := w, height := h } = .fault f)

/-- A step depends on no stream byte but those of its own operation (R41, R49, R172): with any other
bytes before `ip` and after the operation it does the same. -/
def Obligations.OtherBytesUnread : Prop :=
  ∀ (s t : State) (m : Memory), Quiet s → step s = .next t →
    (∀ a, s.ip ≤ a → a < t.ip → readByte m a = readByte s.inp a) →
    step { s with inp := m } = .next { t with inp := m }

/-- Several decoders share no state (R196): a step of one leaves every other as it is. -/
def Obligations.InstancesIndependent : Prop :=
  ∀ (bank : List State) (j k : Nat),
    (stepInstance bank k).length = bank.length ∧
    (j ≠ k → (stepInstance bank k)[j]? = bank[j]?) ∧
    (stepInstance bank k)[k]? = bank[k]?.map settle

/-! ## Ports -/

/-- The handshakes (R54, R55, R210). No byte is accepted while a pixel waits or stands offered, in `DONE`
or in `FAULT`; an offered pixel that is not accepted stays, with the same value; in a cycle with `rst`
(R210), and by the model's choice in one with `start` (log entry 20; R211), nothing is offered or
accepted. And transfers happen: a busy decoder with no pixel waiting that is ready takes the byte offered
to it as the next byte of `IN`; a waiting pixel is offered when the decoder's pace lets it be; an offered
pixel that is accepted is transferred, one fewer waits, and the last one completes the chunk. The lanes
of `out_px` are r, g, b, a from the top (R55); that they carry the next boundary's pixel also while no
pixel is offered, as the last clause says, is the model's choice (log entry 17). -/
def Obligations.PortHandshakes : Prop :=
  (∀ (pace : Pace) (i : PortIn) (p : PortState),
    (0 < p.left ∨ outValid i p = true ∨ p.core.phase = .done ∨ p.core.phase = .fault →
      inReady pace i p = false) ∧
    (outValid i p = true → i.outReady = false → tick pace i p = p ∧
      outPx (tick pace i p) = outPx p) ∧
    (i.rst = true ∨ i.start = true → inReady pace i p = false ∧ outValid i p = false ∧
      tickEvent pace i p = [])) ∧
  (∀ (pace : Pace) (i : PortIn) (p : PortState), PortBoundary p → i.rst = false → i.start = false →
    (p.left = 0 → busyFlag p.core = true → pace.inNow = true →
      inReady pace i p = true ∧
      (i.inValid = true → tickEvent pace i p = [.byteIn i.inData] ∧
        (tick pace i p).core.inp = p.core.inp ++ [(p.core.inp.length, i.inData)])) ∧
    (0 < p.left → p.offering = false → pace.outNow = true →
      (tick pace i p).offering = true ∧ (tick pace i p).left = p.left ∧ tickEvent pace i p = []) ∧
    (p.offering = true → outValid i p = true ∧
      (i.outReady = true → tickEvent pace i p = [.pixelOut (outPx p)] ∧
        (tick pace i p).left + 1 = p.left ∧
        (p.left = 1 → step p.core = .next (tick pace i p).core)))) ∧
  (∀ (p : PortState) (t : State), step p.core = .next t →
    (outPx p).extractLsb' 24 8 = t.px.r ∧ (outPx p).extractLsb' 16 8 = t.px.g ∧
    (outPx p).extractLsb' 8 8 = t.px.b ∧ (outPx p).extractLsb' 0 8 = t.px.a)

/-- The byte-serial decoder after reset has its invariant. -/
def Obligations.PortResetBoundary : Prop := PortBoundary portReset

/-- Every clock cycle, for every input and every pace, keeps the invariant of the byte-serial decoder
(R56). Its part that no operation whose bytes have all arrived is left undone between two cycles is the
model's choice (log entry 11): a completed operation takes effect in the cycle of its last transfer. -/
def Obligations.TickKeepsPortInvariant : Prop :=
  ∀ (pace : Pace) (i : PortIn) (p : PortState), PortBoundary p → PortBoundary (tick pace i p)

/-- Event order at the ports (R56): in any run of cycles from reset, the boundary state is the state of
the model after some number of steps on the bytes transferred, and the transfers are those of these
steps in order, bytes then pixels of each operation, followed by those of the operation in progress. -/
def Obligations.PortsRefineModel : Prop :=
  ∀ l : List (Pace × PortIn), (∀ x ∈ l, portResetAsked x.2 = false) →
    ∃ k, stepN k { State.reset with inp := (ticks l portReset).core.inp } =
        .next (ticks l portReset).core ∧
      tickEvents l portReset =
        modelEvents k { State.reset with inp := (ticks l portReset).core.inp } ++
          partialEvents (ticks l portReset)

/-- What the thirteen status ports show in any cycle (R22), with the numeric codes of R18 and R180: the
pixels counted are those of the boundary and those of the current chunk already transferred, everything
else is the boundary's, and `OUT` holds the bytes of exactly these pixels (R17, R25). What is shown inside
an operation is the model's choice (log entry 5). -/
def Obligations.StatusPortsCountTransfers : Prop :=
  ∀ p : PortState, PortBoundary p →
    ((portStatus p).stOpx.toNat = p.core.opx.toNat + sentPixels p ∧
      (portStatus p).stIp.toNat = p.core.ip % 2 ^ 64 ∧
      (portStatus p).stFaultIp.toNat = p.core.faultIp % 2 ^ 64) ∧
    ((portStatus p).stWidth = p.core.width ∧ (portStatus p).stHeight = p.core.height ∧
      (portStatus p).stChannels = p.core.channels ∧
      (portStatus p).stColorspace = p.core.colorspace) ∧
    ((portStatus p).stPhase = match p.core.phase with
      | .hdr => 0 | .chunk => 1 | .trailer => 2 | .done => 3 | .fault => 4) ∧
    ((portStatus p).stFaultCode = match p.core.faultCode with
      | .none => 0 | .badMagic => 1 | .badTrailer => 2 | .badRunPayload => 3 | .invalidOp => 4
      | .badChannels => 5 | .runOverflow => 6) ∧
    (((portStatus p).stDone = true ↔ p.core.phase = .done) ∧
      ((portStatus p).stFault = true ↔ p.core.phase = .fault) ∧
      ((portStatus p).stBusy = true ↔
        p.core.phase = .hdr ∨ p.core.phase = .chunk ∨ p.core.phase = .trailer) ∧
      ((portStatus p).stHdrValid = true ↔
        p.core.phase = .chunk ∨ p.core.phase = .trailer ∨ p.core.phase = .done ∨
          (p.core.phase = .fault ∧
            (p.core.faultCode = .badTrailer ∨ p.core.faultCode = .runOverflow)))) ∧
    FilledTo (portView p).out ((p.core.opx.toNat + sentPixels p) * p.core.channels.toNat) ∧
    (∀ t, step p.core = .next t →
      (portView p).out.map Prod.snd = p.core.out.map Prod.snd ++
        (List.replicate (sentPixels p) (if p.core.channels = 3 then [t.px.r, t.px.g, t.px.b]
          else [t.px.r, t.px.g, t.px.b, t.px.a])).flatten) ∧
    (p.left = 0 → (portView p).out = p.core.out)

/-- The four outcomes of a run (R192) are distinct and there is no other: where the host does nothing
more, the byte-serial decoder is done, faulted, stuck on input or stuck on output, and stays so. -/
def Obligations.FourOutcomes : Prop :=
  ∀ p : PortState, PortBoundary p →
    (runEnd p = some .stuckOnOutput ↔ 0 < p.left) ∧
    (runEnd p = some .done ↔ p.core.phase = .done) ∧
    (runEnd p = some .fault ↔ p.core.phase = .fault) ∧
    (runEnd p = some .stuckOnInput ↔ p.left = 0 ∧ busyFlag p.core = true) ∧
    (∀ (pace : Pace) (i : PortIn), portResetAsked i = false → i.inValid = false →
      i.outReady = false → runEnd (tick pace i p) = runEnd p)
end

