-- ==== Sys2Proof/Laws/Memory.lean ====
section
/-! SUPPORT. The laws of the two memories: what a read gives after a write, and that every memory
operation keeps the canonical form. -/

namespace Sys2Proof.Machine

open Sys2Proof

/-! ## Reads after writes -/

theorem readByte_writeByte_same (m : Memory) (a : Nat) (b : Byte) :
    readByte (writeByte m a b) a = some b := by
  induction m with
  | nil => simp [writeByte, readByte]
  | cons c m ih =>
    obtain ⟨x, v⟩ := c
    simp only [writeByte]
    split
    · simp [readByte]
    · split
      · simp [readByte]
      · have : x ≠ a := by omega
        simp [readByte, this, ih]

theorem readByte_writeByte_other (m : Memory) {a c : Nat} (b : Byte) (h : c ≠ a) :
    readByte (writeByte m a b) c = readByte m c := by
  induction m with
  | nil => simp [writeByte, readByte, Ne.symm h]
  | cons d m ih =>
    obtain ⟨x, v⟩ := d
    simp only [writeByte]
    split
    · simp [readByte, Ne.symm h]
    · split
      · subst a; simp [readByte, Ne.symm h]
      · simp only [readByte, ih]

/-- A read below or above the written bytes gives what it gave before. -/
theorem readByte_memWrite_other (bs : List Byte) (m : Memory) (a c : Nat)
    (h : c < a ∨ a + bs.length ≤ c) : readByte (memWrite m a bs) c = readByte m c := by
  induction bs generalizing m a with
  | nil => rfl
  | cons b bs ih =>
    simp only [List.length_cons] at h
    rw [memWrite, ih _ _ (by omega), readByte_writeByte_other _ _ (by omega)]

/-- A read of a written byte gives it. -/
theorem readByte_memWrite_same (bs : List Byte) (m : Memory) (a k : Nat) (h : k < bs.length) :
    readByte (memWrite m a bs) (a + k) = bs[k]? := by
  induction bs generalizing m a k with
  | nil => simp at h
  | cons b bs ih =>
    cases k with
    | zero =>
      rw [memWrite, readByte_memWrite_other _ _ _ _ (by omega), Nat.add_zero, readByte_writeByte_same]
      rfl
    | succ k =>
      have := ih (writeByte m a b) (a + 1) k (by simpa using h)
      rw [memWrite, ← Nat.add_assoc, Nat.add_right_comm, this]
      simp

/-! ## `MemRead` -/

/-- `MemRead` answers the list of the bytes at its addresses, and only if all are there. -/
theorem memRead_eq_some (m : Memory) (n : Nat) (a : Nat) (bs : List Byte) :
    memRead m a n = some bs ↔ bs.length = n ∧ ∀ k < n, readByte m (a + k) = bs[k]? := by
  induction n generalizing a bs with
  | zero =>
    simp only [memRead, Option.some.injEq]
    constructor
    · rintro rfl; simp
    · rintro ⟨h, -⟩; exact (List.length_eq_zero_iff.mp h).symm
  | succ n ih =>
    simp only [memRead]
    constructor
    · intro h
      split at h
      · rename_i b cs hb hcs
        obtain rfl := Option.some.inj h
        obtain ⟨hl, hr⟩ := (ih _ _).mp hcs
        refine ⟨by simp [hl], fun k hk => ?_⟩
        cases k with
        | zero => simpa using hb
        | succ k => rw [← Nat.add_assoc, Nat.add_right_comm, hr k (by omega)]; simp
      · cases h
    · rintro ⟨hl, hr⟩
      cases bs with
      | nil => simp at hl
      | cons b cs =>
        have h0 : readByte m a = some b := by simpa using hr 0 (by omega)
        have h1 : memRead m (a + 1) n = some cs := by
          refine (ih _ _).mpr ⟨by simpa using hl, fun k hk => ?_⟩
          have := hr (k + 1) (by omega)
          rw [← Nat.add_assoc, Nat.add_right_comm] at this
          simpa using this
        simp [h0, h1]

/-! ## The canonical form -/

/-- The canonical form, as a condition on the head. -/
theorem Memory.wf_cons (c : Host.Cell) (m : Memory) :
    Memory.wf (c :: m) = true ↔ (∀ d, m.head? = some d → c.1 < d.1) ∧ Memory.wf m = true := by
  cases m <;> simp [Memory.wf]

theorem head?_writeByte (m : Memory) (a : Nat) (b : Byte) (d : Host.Cell)
    (h : (writeByte m a b).head? = some d) : d.1 = a ∨ m.head?.map Prod.fst = some d.1 := by
  cases m with
  | nil => simp [writeByte] at h; simp [← h]
  | cons c m =>
    obtain ⟨x, v⟩ := c
    simp only [writeByte] at h
    split at h
    · simp at h; simp [← h]
    · split at h
      · simp at h; simp [← h]
      · simp at h; simp [← h]

theorem writeByte_wf (m : Memory) (a : Nat) (b : Byte) (h : Memory.wf m = true) :
    Memory.wf (writeByte m a b) = true := by
  induction m with
  | nil => rfl
  | cons c m ih =>
    obtain ⟨x, v⟩ := c
    obtain ⟨h1, h2⟩ := (Memory.wf_cons _ _).mp h
    simp only [writeByte]
    split
    · rename_i hlt
      exact (Memory.wf_cons _ _).mpr ⟨by simpa using hlt, h⟩
    · split
      · rename_i hne
        exact (Memory.wf_cons _ _).mpr ⟨fun d hd => by have := h1 d hd; simp only at *; omega, h2⟩
      · refine (Memory.wf_cons _ _).mpr ⟨fun d hd => ?_, ih h2⟩
        rcases head?_writeByte m a b d hd with h3 | h3
        · simp only; omega
        · cases m with
          | nil => simp at h3
          | cons e m =>
            have := h1 e rfl
            simp at h3
            simp only at *
            omega

/-- Every memory operation that changes a memory keeps the canonical form. -/
theorem memWrite_wf (bs : List Byte) (m : Memory) (a : Nat) (h : Memory.wf m = true) :
    Memory.wf (memWrite m a bs) = true := by
  induction bs generalizing m a with
  | nil => exact h
  | cons b bs ih => exact ih _ _ (writeByte_wf m a b h)

theorem reset_out_wf : Memory.wf State.reset.out = true := rfl

theorem reset_inp_wf : Memory.wf State.reset.inp = true := rfl

end Sys2Proof.Machine
end

