-- ==== Sys2Proof/Laws/State.lean ====
section
/-! SUPPORT. The small lemmas of the named updates of State: one per field, so that no proof unfolds an
update. -/

namespace Sys2Proof.Machine

open Sys2Proof

/-! ## Single registers -/

section
variable (n : Nat) (s : State)
@[simp] theorem advanceIp_px : (advanceIp n s).px = s.px := rfl
@[simp] theorem advanceIp_cache : (advanceIp n s).cache = s.cache := rfl
@[simp] theorem advanceIp_ip : (advanceIp n s).ip = s.ip + n := rfl
@[simp] theorem advanceIp_opx : (advanceIp n s).opx = s.opx := rfl
@[simp] theorem advanceIp_width : (advanceIp n s).width = s.width := rfl
@[simp] theorem advanceIp_height : (advanceIp n s).height = s.height := rfl
@[simp] theorem advanceIp_channels : (advanceIp n s).channels = s.channels := rfl
@[simp] theorem advanceIp_colorspace : (advanceIp n s).colorspace = s.colorspace := rfl
@[simp] theorem advanceIp_phase : (advanceIp n s).phase = s.phase := rfl
@[simp] theorem advanceIp_faultCode : (advanceIp n s).faultCode = s.faultCode := rfl
@[simp] theorem advanceIp_faultIp : (advanceIp n s).faultIp = s.faultIp := rfl
@[simp] theorem advanceIp_out : (advanceIp n s).out = s.out := rfl
@[simp] theorem advanceIp_inp : (advanceIp n s).inp = s.inp := rfl
@[simp] theorem advanceIp_rst : (advanceIp n s).rst = s.rst := rfl
@[simp] theorem advanceIp_start : (advanceIp n s).start = s.start := rfl
end

/-! ## The pixel register -/

section
variable (p : Pixel) (s : State)
@[simp] theorem setPx_px : (setPx p s).px = p := rfl
@[simp] theorem setPx_cache : (setPx p s).cache = s.cache := rfl
@[simp] theorem setPx_ip : (setPx p s).ip = s.ip := rfl
@[simp] theorem setPx_opx : (setPx p s).opx = s.opx := rfl
@[simp] theorem setPx_width : (setPx p s).width = s.width := rfl
@[simp] theorem setPx_height : (setPx p s).height = s.height := rfl
@[simp] theorem setPx_channels : (setPx p s).channels = s.channels := rfl
@[simp] theorem setPx_colorspace : (setPx p s).colorspace = s.colorspace := rfl
@[simp] theorem setPx_phase : (setPx p s).phase = s.phase := rfl
@[simp] theorem setPx_faultCode : (setPx p s).faultCode = s.faultCode := rfl
@[simp] theorem setPx_faultIp : (setPx p s).faultIp = s.faultIp := rfl
@[simp] theorem setPx_out : (setPx p s).out = s.out := rfl
@[simp] theorem setPx_inp : (setPx p s).inp = s.inp := rfl
@[simp] theorem setPx_rst : (setPx p s).rst = s.rst := rfl
@[simp] theorem setPx_start : (setPx p s).start = s.start := rfl
end

/-! ## The phase -/

section
variable (x : Phase) (s : State)
@[simp] theorem setPhase_px : (setPhase x s).px = s.px := rfl
@[simp] theorem setPhase_cache : (setPhase x s).cache = s.cache := rfl
@[simp] theorem setPhase_ip : (setPhase x s).ip = s.ip := rfl
@[simp] theorem setPhase_opx : (setPhase x s).opx = s.opx := rfl
@[simp] theorem setPhase_width : (setPhase x s).width = s.width := rfl
@[simp] theorem setPhase_height : (setPhase x s).height = s.height := rfl
@[simp] theorem setPhase_channels : (setPhase x s).channels = s.channels := rfl
@[simp] theorem setPhase_colorspace : (setPhase x s).colorspace = s.colorspace := rfl
@[simp] theorem setPhase_phase : (setPhase x s).phase = x := rfl
@[simp] theorem setPhase_faultCode : (setPhase x s).faultCode = s.faultCode := rfl
@[simp] theorem setPhase_faultIp : (setPhase x s).faultIp = s.faultIp := rfl
@[simp] theorem setPhase_out : (setPhase x s).out = s.out := rfl
@[simp] theorem setPhase_inp : (setPhase x s).inp = s.inp := rfl
@[simp] theorem setPhase_rst : (setPhase x s).rst = s.rst := rfl
@[simp] theorem setPhase_start : (setPhase x s).start = s.start := rfl
end

/-! ## Fault entry -/

section
variable (c : FaultCode) (a n : Nat) (s : State)
@[simp] theorem raiseFault_px : (raiseFault c a n s).px = s.px := rfl
@[simp] theorem raiseFault_cache : (raiseFault c a n s).cache = s.cache := rfl
@[simp] theorem raiseFault_ip : (raiseFault c a n s).ip = a + n := rfl
@[simp] theorem raiseFault_opx : (raiseFault c a n s).opx = s.opx := rfl
@[simp] theorem raiseFault_width : (raiseFault c a n s).width = s.width := rfl
@[simp] theorem raiseFault_height : (raiseFault c a n s).height = s.height := rfl
@[simp] theorem raiseFault_channels : (raiseFault c a n s).channels = s.channels := rfl
@[simp] theorem raiseFault_colorspace : (raiseFault c a n s).colorspace = s.colorspace := rfl
@[simp] theorem raiseFault_phase : (raiseFault c a n s).phase = .fault := rfl
@[simp] theorem raiseFault_faultCode : (raiseFault c a n s).faultCode = c := rfl
@[simp] theorem raiseFault_faultIp : (raiseFault c a n s).faultIp = a := rfl
@[simp] theorem raiseFault_out : (raiseFault c a n s).out = s.out := rfl
@[simp] theorem raiseFault_inp : (raiseFault c a n s).inp = s.inp := rfl
@[simp] theorem raiseFault_rst : (raiseFault c a n s).rst = s.rst := rfl
@[simp] theorem raiseFault_start : (raiseFault c a n s).start = s.start := rfl
end

/-! ## Restart -/

section
variable (s : State)
@[simp] theorem restart_px : (restart s).px = ⟨0, 0, 0, 255⟩ := rfl
@[simp] theorem restart_cache : (restart s).cache = Vector.replicate 64 ⟨0, 0, 0, 0⟩ := rfl
@[simp] theorem restart_ip : (restart s).ip = 0 := rfl
@[simp] theorem restart_opx : (restart s).opx = 0 := rfl
@[simp] theorem restart_width : (restart s).width = 0 := rfl
@[simp] theorem restart_height : (restart s).height = 0 := rfl
@[simp] theorem restart_channels : (restart s).channels = 0 := rfl
@[simp] theorem restart_colorspace : (restart s).colorspace = 0 := rfl
@[simp] theorem restart_phase : (restart s).phase = .hdr := rfl
@[simp] theorem restart_faultCode : (restart s).faultCode = .none := rfl
@[simp] theorem restart_faultIp : (restart s).faultIp = 0 := rfl
@[simp] theorem restart_out : (restart s).out = [] := rfl
@[simp] theorem restart_inp : (restart s).inp = s.inp := rfl
@[simp] theorem restart_rst : (restart s).rst = false := rfl
@[simp] theorem restart_start : (restart s).start = false := rfl
end

/-! ## One pixel written -/

section
variable (s : State)
@[simp] theorem emitPixel_px : (emitPixel s).px = s.px := rfl
@[simp] theorem emitPixel_cache : (emitPixel s).cache = s.cache := rfl
@[simp] theorem emitPixel_ip : (emitPixel s).ip = s.ip := rfl
@[simp] theorem emitPixel_opx : (emitPixel s).opx = s.opx + 1 := rfl
@[simp] theorem emitPixel_width : (emitPixel s).width = s.width := rfl
@[simp] theorem emitPixel_height : (emitPixel s).height = s.height := rfl
@[simp] theorem emitPixel_channels : (emitPixel s).channels = s.channels := rfl
@[simp] theorem emitPixel_colorspace : (emitPixel s).colorspace = s.colorspace := rfl
@[simp] theorem emitPixel_phase : (emitPixel s).phase = s.phase := rfl
@[simp] theorem emitPixel_faultCode : (emitPixel s).faultCode = s.faultCode := rfl
@[simp] theorem emitPixel_faultIp : (emitPixel s).faultIp = s.faultIp := rfl
@[simp] theorem emitPixel_out :
    (emitPixel s).out = memWrite s.out (outAddr s) (pixelBytes s.channels s.px) := rfl
@[simp] theorem emitPixel_inp : (emitPixel s).inp = s.inp := rfl
@[simp] theorem emitPixel_rst : (emitPixel s).rst = s.rst := rfl
@[simp] theorem emitPixel_start : (emitPixel s).start = s.start := rfl
end

/-! ## The cache write -/

section
variable (s : State)
@[simp] theorem cachePixel_px : (cachePixel s).px = s.px := rfl
@[simp] theorem cachePixel_ip : (cachePixel s).ip = s.ip := rfl
@[simp] theorem cachePixel_opx : (cachePixel s).opx = s.opx := rfl
@[simp] theorem cachePixel_width : (cachePixel s).width = s.width := rfl
@[simp] theorem cachePixel_height : (cachePixel s).height = s.height := rfl
@[simp] theorem cachePixel_channels : (cachePixel s).channels = s.channels := rfl
@[simp] theorem cachePixel_colorspace : (cachePixel s).colorspace = s.colorspace := rfl
@[simp] theorem cachePixel_phase : (cachePixel s).phase = s.phase := rfl
@[simp] theorem cachePixel_faultCode : (cachePixel s).faultCode = s.faultCode := rfl
@[simp] theorem cachePixel_faultIp : (cachePixel s).faultIp = s.faultIp := rfl
@[simp] theorem cachePixel_out : (cachePixel s).out = s.out := rfl
@[simp] theorem cachePixel_inp : (cachePixel s).inp = s.inp := rfl
@[simp] theorem cachePixel_rst : (cachePixel s).rst = s.rst := rfl
@[simp] theorem cachePixel_start : (cachePixel s).start = s.start := rfl

/-- The cache after a cache write, slot by slot. -/
@[simp] theorem cachePixel_cache (i : Fin 64) :
    (cachePixel s).cache[i] = if i = pixelHash s.px then s.px else s.cache[i] := by
  have h := Vector.getElem_set (xs := s.cache) (i := (pixelHash s.px).val) (x := s.px)
    (pixelHash s.px).isLt (j := i.val) i.isLt
  simp only [cachePixel, Fin.getElem_fin] at h ⊢
  rw [h]
  simp [Fin.ext_iff, eq_comm]
end

/-! ## The header registers latched -/

section
variable (w h : Word32) (c cs : Byte) (s : State)
@[simp] theorem latchHeader_px : (latchHeader w h c cs s).px = s.px := rfl
@[simp] theorem latchHeader_cache : (latchHeader w h c cs s).cache = s.cache := rfl
@[simp] theorem latchHeader_ip : (latchHeader w h c cs s).ip = s.ip := rfl
@[simp] theorem latchHeader_opx : (latchHeader w h c cs s).opx = s.opx := rfl
@[simp] theorem latchHeader_width : (latchHeader w h c cs s).width = w := rfl
@[simp] theorem latchHeader_height : (latchHeader w h c cs s).height = h := rfl
@[simp] theorem latchHeader_channels : (latchHeader w h c cs s).channels = c := rfl
@[simp] theorem latchHeader_colorspace : (latchHeader w h c cs s).colorspace = cs := rfl
@[simp] theorem latchHeader_phase : (latchHeader w h c cs s).phase = s.phase := rfl
@[simp] theorem latchHeader_faultCode : (latchHeader w h c cs s).faultCode = s.faultCode := rfl
@[simp] theorem latchHeader_faultIp : (latchHeader w h c cs s).faultIp = s.faultIp := rfl
@[simp] theorem latchHeader_out : (latchHeader w h c cs s).out = s.out := rfl
@[simp] theorem latchHeader_inp : (latchHeader w h c cs s).inp = s.inp := rfl
@[simp] theorem latchHeader_rst : (latchHeader w h c cs s).rst = s.rst := rfl
@[simp] theorem latchHeader_start : (latchHeader w h c cs s).start = s.start := rfl
end

end Sys2Proof.Machine
end

