-- ==== Sys2Proof/Laws/Ops.lean ====
section
/-! SUPPORT. One lemma per shared operation that says everything it can do; proofs about instructions cite
these and do not unfold the operations. -/

namespace Sys2Proof.Machine

open Sys2Proof

/-! ## Pixel bytes -/

theorem legalChannels_iff (c : Byte) : legalChannels c = true ↔ c = 3 ∨ c = 4 := by
  simp [legalChannels]

theorem pixelBytes_length (c : Byte) (p : Pixel) (h : c = 3 ∨ c = 4) :
    (pixelBytes c p).length = c.toNat := by
  rcases h with rfl | rfl <;> rfl

theorem pixelBytes_get (c : Byte) (p : Pixel) (h : c = 3 ∨ c = 4) (j : Nat) (hj : j < c.toNat) :
    (pixelBytes c p)[j]? = [p.r, p.g, p.b, p.a][j]? := by
  rcases h with rfl | rfl
  · have : j < 3 := hj
    interval_cases j <;> rfl
  · rfl

/-! ## The run of pixel writes -/

/-- A run of pixel writes changes the pixel counter and `OUT` and nothing else. -/
theorem emitRun_frame (k : Nat) (s : State) :
    emitRun k s = { s with opx := (emitRun k s).opx, out := (emitRun k s).out } := by
  induction k generalizing s with
  | zero => rfl
  | succ k ih =>
    rw [emitRun, ih (emitPixel s)]
    rfl

section
variable (k : Nat) (s : State)
@[simp] theorem emitRun_px : (emitRun k s).px = s.px := by rw [emitRun_frame]
@[simp] theorem emitRun_cache : (emitRun k s).cache = s.cache := by rw [emitRun_frame]
@[simp] theorem emitRun_ip : (emitRun k s).ip = s.ip := by rw [emitRun_frame]
@[simp] theorem emitRun_width : (emitRun k s).width = s.width := by rw [emitRun_frame]
@[simp] theorem emitRun_height : (emitRun k s).height = s.height := by rw [emitRun_frame]
@[simp] theorem emitRun_channels : (emitRun k s).channels = s.channels := by rw [emitRun_frame]
@[simp] theorem emitRun_colorspace : (emitRun k s).colorspace = s.colorspace := by rw [emitRun_frame]
@[simp] theorem emitRun_phase : (emitRun k s).phase = s.phase := by rw [emitRun_frame]
@[simp] theorem emitRun_faultCode : (emitRun k s).faultCode = s.faultCode := by rw [emitRun_frame]
@[simp] theorem emitRun_faultIp : (emitRun k s).faultIp = s.faultIp := by rw [emitRun_frame]
@[simp] theorem emitRun_inp : (emitRun k s).inp = s.inp := by rw [emitRun_frame]
@[simp] theorem emitRun_rst : (emitRun k s).rst = s.rst := by rw [emitRun_frame]
@[simp] theorem emitRun_start : (emitRun k s).start = s.start := by rw [emitRun_frame]
end

/-- The pixel counter counts the pixels of the run, where the 64 bits hold them. -/
theorem emitRun_opx (k : Nat) (s : State) (h : s.opx.toNat + k < 2 ^ 64) :
    (emitRun k s).opx.toNat = s.opx.toNat + k := by
  induction k generalizing s with
  | zero => rfl
  | succ k ih =>
    have h1 : (emitPixel s).opx.toNat = s.opx.toNat + 1 := by
      simp only [emitPixel_opx, BitVec.toNat_add, show (1 : BitVec 64).toNat = 1 from rfl]; omega
    rw [emitRun, ih _ (by omega), h1]; omega

/-- `OUT` after a run of pixel writes: component `j` of pixel `i` of the run stands at its place. -/
theorem emitRun_stored (k : Nat) (s : State) (hc : s.channels = 3 ∨ s.channels = 4)
    (h : s.opx.toNat + k < 2 ^ 64) :
    (∀ i < k, ∀ j < s.channels.toNat,
      readByte (emitRun k s).out (outAddr s + i * s.channels.toNat + j) =
        [s.px.r, s.px.g, s.px.b, s.px.a][j]?) ∧
    (∀ a, a < outAddr s ∨ outAddr s + k * s.channels.toNat ≤ a →
      readByte (emitRun k s).out a = readByte s.out a) := by
  induction k generalizing s with
  | zero => simp [emitRun]
  | succ k ih =>
    have h1 : (emitPixel s).opx.toNat = s.opx.toNat + 1 := by
      simp only [emitPixel_opx, BitVec.toNat_add, show (1 : BitVec 64).toNat = 1 from rfl]; omega
    have ha : outAddr (emitPixel s) = outAddr s + s.channels.toNat := by
      simp only [outAddr, h1, emitPixel_channels]; ring
    have hl := pixelBytes_length s.channels s.px hc
    obtain ⟨i1, i2⟩ := ih (emitPixel s) hc (by omega)
    simp only [ha, emitPixel_channels, emitPixel_px] at i1 i2
    refine ⟨fun i hi j hj => ?_, fun a hlt => ?_⟩
    · rw [emitRun]
      cases i with
      | zero =>
        rw [i2 _ (.inl (by omega)), emitPixel_out]
        have := readByte_memWrite_same (pixelBytes s.channels s.px) s.out (outAddr s) j (by omega)
        rw [show outAddr s + 0 * s.channels.toNat + j = outAddr s + j by omega, this,
          pixelBytes_get _ _ hc _ hj]
      | succ i =>
        have := i1 i (by omega) j hj
        rw [← this]; congr 1; ring
    · rw [emitRun, i2 a ?_, emitPixel_out, readByte_memWrite_other _ _ _ _ ?_]
      · rw [hl]; rw [Nat.succ_mul] at hlt; omega
      · rw [Nat.succ_mul] at hlt; omega

/-! ## The next phase -/

/-- `next_phase()` is one of the two phases that go on (R115). -/
theorem nextPhase_cases (s : State) :
    (nextPhase s = .trailer ∧ s.opx.toNat = s.width.toNat * s.height.toNat) ∨
    (nextPhase s = .chunk ∧ s.opx.toNat ≠ s.width.toNat * s.height.toNat) := by
  by_cases h : s.opx.toNat = s.width.toNat * s.height.toNat
  · exact .inl ⟨if_pos h, h⟩
  · exact .inr ⟨if_neg h, h⟩

/-! ## The commit and the chunk step -/

/-- Commit of a run that does not fit: fault entry and nothing else (R162). -/
theorem commit_overflow (a n : Nat) (p : Pixel) (run : Nat) (s : State) (h : pixelsLeft s < run) :
    commit a n p run s = raiseFault .runOverflow a n s := by
  simp [commit, h]

theorem pixelsLeft_lt_iff (s : State) (run : Nat) (h : 0 < run) :
    pixelsLeft s < run ↔ ¬ Fits s run := by
  simp only [Fits, pixelsLeft, pixelCount]
  omega

/-- A chunk step in its precondition is a commit. -/
theorem chunkStep_ready (n : Nat) (p : Pixel) (run : Nat) (s : State) (hr : ChunkReady s) :
    chunkStep n p run s = .next (commit s.ip n p run (advanceIp n s)) := by
  simp [chunkStep, hr.1, (legalChannels_iff _).mpr hr.2]

/-- A chunk step of a run that does not fit. -/
theorem chunkStep_overflow (n : Nat) (p : Pixel) (run : Nat) (s : State) (hr : ChunkReady s)
    (h0 : 0 < run) (h : ¬ Fits s run) :
    chunkStep n p run s = .next (raiseFault .runOverflow s.ip n s) := by
  rw [chunkStep_ready n p run s hr,
    commit_overflow _ _ _ _ _ ((pixelsLeft_lt_iff (advanceIp n s) run h0).mpr h)]
  rfl

theorem pixelCount_lt (s : State) : s.width.toNat * s.height.toNat < 2 ^ 64 := by
  have h1 := s.width.isLt
  have h2 := s.height.isLt
  calc s.width.toNat * s.height.toNat ≤ (2 ^ 32 - 1) * (2 ^ 32 - 1) := by
        apply Nat.mul_le_mul <;> omega
    _ < 2 ^ 64 := by decide

/-- A chunk step of a run that fits does all that R110 and R112 say, and nothing else. -/
theorem chunkStep_fits (n : Nat) (p : Pixel) (run : Nat) (s : State) (hr : ChunkReady s)
    (h0 : 0 < run) (h : Fits s run) : ∃ t, chunkStep n p run s = .next t ∧ ChunkDone s t n p run := by
  have hP := pixelCount_lt s
  have hf : s.opx.toNat + run < 2 ^ 64 := by simp only [Fits] at h; omega
  have hl : ¬ pixelsLeft (advanceIp n s) < run := by
    rw [pixelsLeft_lt_iff _ _ h0]; exact not_not_intro h
  refine ⟨_, chunkStep_ready n p run s hr, ?_⟩
  rw [commit, if_neg hl]
  obtain ⟨h1, h2⟩ := emitRun_stored run (setPx p (advanceIp n s)) hr.2 hf
  have h3 := emitRun_opx run (setPx p (advanceIp n s)) hf
  constructor
  · simp
  · simp
  · simpa using h3
  · simp [nextPhase, pixelCount, h3]
  · intro i
    simpa using cachePixel_cache (emitRun run (setPx p (advanceIp n s))) i
  · exact h1
  · exact h2
  · simp [SameHeader]
  · simp [SameFault]
  · simp [SameHost]

/-- Everything a chunk step that answers a next state can have done. -/
theorem chunkStep_cases {n : Nat} {p : Pixel} {run : Nat} {s t : State} (h0 : 0 < run)
    (h : chunkStep n p run s = .next t) :
    ChunkReady s ∧
      ((Fits s run ∧ ChunkDone s t n p run) ∨
        (¬ Fits s run ∧ t = raiseFault .runOverflow s.ip n s)) := by
  have hr : ChunkReady s := by
    unfold chunkStep at h
    split at h
    · cases h
    · rename_i h1
      split at h
      · rename_i h2
        exact ⟨by simpa using h1, (legalChannels_iff _).mp h2⟩
      · cases h
  refine ⟨hr, ?_⟩
  by_cases hf : Fits s run
  · obtain ⟨t', h1, h2⟩ := chunkStep_fits n p run s hr h0 hf
    rw [h] at h1
    cases h1
    exact .inl ⟨hf, h2⟩
  · rw [chunkStep_overflow n p run s hr h0 hf] at h
    cases h
    exact .inr ⟨hf, rfl⟩

/-- Fault entry in the terms claims use (R188). -/
theorem raiseFault_taken (c : FaultCode) (n : Nat) (s : State) :
    FaultTaken s (raiseFault c s.ip n s) c n :=
  ⟨rfl, rfl, rfl, rfl, ⟨rfl, rfl, rfl, rfl⟩, ⟨rfl, rfl, rfl⟩⟩

end Sys2Proof.Machine
end

