-- ==== Sys2Proof/Laws/Exec.lean ====
section
/-! SUPPORT. What an operation, a fetch and a step can do, said once: proofs about all operations split on
these cases and do not unfold the meanings. -/

namespace Sys2Proof.Machine

open Sys2Proof

/-! ## Operations -/

/-- The new pixel of a chunk's `execute` at a state. -/
def chunkPixel (i : Instr) (s : State) : Pixel :=
  match i with
  | .rgb r g b => ⟨r, g, b, s.px.a⟩
  | .rgba r g b a => ⟨r, g, b, a⟩
  | .index v => s.cache[slotOf v]
  | .diff fr fg fb => addDeltas s.px (diffDelta fr) (diffDelta fg) (diffDelta fb)
  | .luma fg frg fbg =>
    addDeltas s.px (lumaOther frg (lumaGreen fg)) (lumaGreen fg) (lumaOther fbg (lumaGreen fg))
  | _ => s.px

theorem chunkRun_pos (i : Instr) : 0 < chunkRun i := by
  cases i <;> simp [chunkRun]

/-- Every chunk but the dead `RUN` payload is a chunk step. -/
theorem exec_chunk (i : Instr) (s : State) (hi : i.record = .chunk) (h : i ≠ .run 63) :
    exec i s = chunkStep i.length (chunkPixel i s) (chunkRun i) s := by
  cases i with
  | hdr => cases hi
  | endOp => cases hi
  | run v =>
    have hv : v ≠ 63 := fun e => h (e ▸ rfl)
    simp only [exec, execRun, hv, false_and, if_false, Instr.length, chunkPixel, chunkRun, runLength]
  | _ => rfl

/-- The dead payload (R161). -/
theorem exec_run63 (s : State) (h : s.phase = .chunk) :
    exec (.run 63) s = .next (raiseFault .badRunPayload s.ip 1 s) := by
  simp [exec, execRun, h]

/-- A chunk that is executed in a chunk phase and fits does all of `ChunkDone`. -/
theorem exec_chunk_fits (i : Instr) (s : State) (hi : i.record = .chunk) (h : i ≠ .run 63)
    (hr : ChunkReady s) (hf : Fits s (chunkRun i)) :
    ∃ t, exec i s = .next t ∧ ChunkDone s t i.length (chunkPixel i s) (chunkRun i) := by
  rw [exec_chunk i s hi h]
  exact chunkStep_fits _ _ _ _ hr (chunkRun_pos i) hf

/-- What a chunk that has a next state has done. -/
theorem exec_chunk_cases {i : Instr} {s t : State} (hi : i.record = .chunk)
    (h : exec i s = .next t) :
    s.phase = .chunk ∧
      ((ChunkReady s ∧ Fits s (chunkRun i) ∧
          ChunkDone s t i.length (chunkPixel i s) (chunkRun i)) ∨
        (ChunkReady s ∧ ¬ Fits s (chunkRun i) ∧ t = raiseFault .runOverflow s.ip i.length s) ∨
        (i = .run 63 ∧ t = raiseFault .badRunPayload s.ip i.length s)) := by
  by_cases h63 : i = .run 63
  · subst h63
    by_cases hp : s.phase = .chunk
    · rw [exec_run63 s hp] at h
      cases h
      exact ⟨hp, .inr (.inr ⟨rfl, rfl⟩)⟩
    · simp [exec, execRun, hp, chunkStep] at h
  · rw [exec_chunk i s hi h63] at h
    obtain ⟨hr, ⟨hf, hd⟩ | ⟨hf, rfl⟩⟩ := chunkStep_cases (chunkRun_pos i) h
    · exact ⟨hr.1, .inl ⟨hr, hf, hd⟩⟩
    · exact ⟨hr.1, .inr (.inl ⟨hr, hf, rfl⟩)⟩

/-- What a header that has a next state has done (R100 to R103). -/
theorem exec_hdr_cases {m w h : Word32} {c cs : Byte} {s t : State}
    (he : exec (.hdr m w h c cs) s = .next t) :
    s.phase = .hdr ∧
      let u := advanceIp 14 (latchHeader w h c cs s)
      ((m ≠ Config.magic ∧ t = raiseFault .badMagic s.ip 14 u) ∨
        (m = Config.magic ∧ (c = 3 ∨ c = 4) ∧ t = setPhase (nextPhase u) u) ∨
        (m = Config.magic ∧ ¬ (c = 3 ∨ c = 4) ∧ t = raiseFault .badChannels s.ip 14 u)) := by
  simp only [exec, execHdr] at he
  split at he
  · cases he
  · rename_i hp
    refine ⟨by simpa using hp, ?_⟩
    split at he
    · rename_i hm; cases he; exact .inl ⟨hm, rfl⟩
    · rename_i hm
      have hm : m = Config.magic := by simpa using hm
      split at he
      · rename_i hc; cases he; exact .inr (.inl ⟨hm, (legalChannels_iff c).mp hc, rfl⟩)
      · rename_i hc; cases he
        exact .inr (.inr ⟨hm, fun h => hc ((legalChannels_iff c).mpr h), rfl⟩)

/-- What a trailer check that has a next state has done (R170). -/
theorem exec_end_cases {b : BitVec 64} {s t : State} (he : exec (.endOp b) s = .next t) :
    s.phase = .trailer ∧
      ((b = Config.trailer ∧ t = setPhase .done (advanceIp 8 s)) ∨
        (b ≠ Config.trailer ∧ t = raiseFault .badTrailer s.ip 8 (advanceIp 8 s))) := by
  simp only [exec, execEnd] at he
  split at he
  · cases he
  · rename_i hp
    refine ⟨by simpa using hp, ?_⟩
    split at he
    · rename_i hb; cases he; exact .inl ⟨hb, rfl⟩
    · rename_i hb; cases he; exact .inr ⟨hb, rfl⟩

/-- Where a meaning stops: outside its phase, or at a channel count no run has. -/
theorem exec_stops {i : Instr} {s : State} {f : Fault} (h : exec i s = .fault f) :
    (f = .wrongPhase ∧ s.phase ≠ (match i.record with
      | .header => Phase.hdr
      | .chunk => .chunk
      | .trailer => .trailer)) ∨
    (f = .illegalChannels ∧ i.record = .chunk ∧ ¬ (s.channels = 3 ∨ s.channels = 4)) := by
  cases hi : i.record with
  | header =>
    cases i <;> simp [Instr.record] at hi
    simp only [exec, execHdr] at h
    split at h
    · rename_i hp; cases h; exact .inl ⟨rfl, hp⟩
    · split at h
      · cases h
      · split at h <;> cases h
  | trailer =>
    cases i <;> simp [Instr.record] at hi
    simp only [exec, execEnd] at h
    split at h
    · rename_i hp; cases h; exact .inl ⟨rfl, hp⟩
    · split at h <;> cases h
  | chunk =>
    have hc : chunkStep i.length (chunkPixel i s) (chunkRun i) s = .fault f := by
      by_cases h63 : i = .run 63
      · subst h63
        by_cases hp : s.phase = .chunk
        · rw [exec_run63 s hp] at h; cases h
        · simp only [exec, execRun, hp, and_false, if_false] at h
          exact h
      · rwa [exec_chunk i s hi h63] at h
    unfold chunkStep at hc
    split at hc
    · rename_i hp; cases hc; exact .inl ⟨rfl, hp⟩
    · split at hc
      · cases hc
      · rename_i hl; cases hc
        exact .inr ⟨rfl, rfl, fun h => hl ((legalChannels_iff _).mpr h)⟩

/-- No meaning answers a refusal. -/
theorem exec_not_refused (i : Instr) (s : State) (r : Refusal) : exec i s ≠ .refused r := by
  intro h
  cases hi : i.record with
  | chunk =>
    by_cases h63 : i = .run 63
    · subst h63
      by_cases hp : s.phase = .chunk
      · rw [exec_run63 s hp] at h; cases h
      · simp [exec, execRun, hp, chunkStep] at h
    · rw [exec_chunk i s hi h63] at h
      unfold chunkStep at h
      split at h
      · cases h
      · split at h <;> cases h
  | header =>
    cases i <;> simp [Instr.record] at hi
    simp only [exec, execHdr] at h
    split at h
    · cases h
    · split at h
      · cases h
      · split at h <;> cases h
  | trailer =>
    cases i <;> simp [Instr.record] at hi
    simp only [exec, execEnd] at h
    split at h
    · cases h
    · split at h <;> cases h

/-! ## Fetch and step -/

/-- A fetched operation was decoded from the record bytes at `ip`. -/
theorem fetch_op {s : State} {i : Instr} (h : fetch s = .op i) :
    ∃ r bs rest, recordOf s.phase = some r ∧ fetchBytes s.inp s.ip r = some bs ∧
      decode r bs = .ok (i, rest) := by
  unfold fetch at h
  split at h
  · cases h
  · split at h
    · cases h
    · split at h
      · rename_i _ r hr _ bs hb _ j rest hd
        cases h
        exact ⟨r, bs, rest, hr, hb, hd⟩
      · cases h

theorem fetch_idle_iff (s : State) : fetch s = .idle ↔ recordOf s.phase = none := by
  unfold fetch
  split
  · simp [*]
  · split
    · simp [*]
    · split <;> simp [*]

theorem restartAsked_iff (s : State) : restartAsked s = true ↔ s.rst = true ∨ s.start = true := by
  simp [restartAsked]

theorem restartAsked_quiet {s : State} (h : Quiet s) : restartAsked s = false := by
  simp [restartAsked, h.1, h.2]

/-- Everything a step that has a next state can have been. -/
theorem step_cases {s t : State} (h : step s = .next t) :
    (restartAsked s = true ∧ t = restart s) ∨
    (restartAsked s = false ∧ recordOf s.phase = none ∧ t = s) ∨
    (restartAsked s = false ∧ ∃ i, fetch s = .op i ∧ exec i s = .next t) := by
  unfold step at h
  split at h
  · rename_i hr; cases h; exact .inl ⟨hr, rfl⟩
  · rename_i hr
    have hr : restartAsked s = false := by simpa using hr
    split at h
    · rename_i hf; cases h; exact .inr (.inl ⟨hr, (fetch_idle_iff _).mp hf, rfl⟩)
    · cases h
    · rename_i i hf; exact .inr (.inr ⟨hr, i, hf, h⟩)

/-- A step that fetched an operation is its execution. -/
theorem step_op {s : State} {i : Instr} (hq : restartAsked s = false) (h : fetch s = .op i) :
    step s = exec i s := by
  simp [step, hq, h]

/-- A step that fetched nothing is stuck. -/
theorem step_stuck {s : State} (hq : restartAsked s = false) (h : fetch s = .stuck) :
    step s = .fault .stuckOnInput := by
  simp [step, hq, h]

/-- A step in a final phase changes nothing. -/
theorem step_idle {s : State} (hq : restartAsked s = false) (h : fetch s = .idle) :
    step s = .next s := by
  simp [step, hq, h]

/-- The bytes of an operation stand at `ip` where `MemRead` answers them. -/
theorem holdsAt_of_memRead {s : State} {i : Instr}
    (h : memRead s.inp s.ip (encode i).length = some (encode i)) : HoldsAt s i := by
  intro k b hk
  rw [((memRead_eq_some _ _ _ _).mp h).2 k (List.getElem?_eq_some_iff.mp hk).1, hk]

/-- A stream stands in `IN` where `MemRead` answers it. -/
theorem holdsStream_of_memRead {s : State} {bs : List Byte}
    (h : memRead s.inp 0 bs.length = some bs) : HoldsStream s bs := by
  intro k b hk
  have := ((memRead_eq_some _ _ _ _).mp h).2 k (List.getElem?_eq_some_iff.mp hk).1
  rw [Nat.zero_add] at this
  rw [this, hk]

end Sys2Proof.Machine
end

