-- ==== Sys2Proof/Laws/PerInstr.lean ====
section
/-! SUPPORT. Statements made of every operation as syntax, one lemma per constructor. -/

/-- The encoding of an operation has the length of its format (spec/30_encoding.md R71). -/
def Sys2Proof.Laws.EncodeLength.Statement (i : Sys2Proof.Instr) : Prop :=
  (Sys2Proof.encode i).length = i.length

namespace Sys2Proof.Laws.EncodeLength

theorem hdr (magic width height : Word32) (channels colorspace : Byte) :
    Statement (.hdr magic width height channels colorspace) := rfl
theorem rgb (r g b : Byte) : Statement (.rgb r g b) := rfl
theorem rgba (r g b a : Byte) : Statement (.rgba r g b a) := rfl
theorem index (v : BitVec 6) : Statement (.index v) := rfl
theorem diff (fr fg fb : BitVec 2) : Statement (.diff fr fg fb) := rfl
theorem luma (fg : BitVec 6) (frg fbg : BitVec 4) : Statement (.luma fg frg fbg) := rfl
theorem run (v : BitVec 6) : Statement (.run v) := rfl
theorem endOp (bytes : BitVec 64) : Statement (.endOp bytes) := rfl

end Sys2Proof.Laws.EncodeLength
end

