-- ==== Sys2Proof/Laws/Ports.lean ====
section
/-! SUPPORT. What one clock cycle of the byte-serial decoder can be, said once, and small lemmas of its
state; proofs about cycles split on `tick_cases` and do not unfold `tick`. -/

namespace Sys2Proof.Machine

open Sys2Proof

@[simp] theorem portReset_core : portReset.core = State.reset := rfl
@[simp] theorem portReset_left : portReset.left = 0 := rfl
@[simp] theorem portReset_offering : portReset.offering = false := rfl

theorem portResetAsked_iff (i : PortIn) : portResetAsked i = true ↔ i.rst = true ∨ i.start = true := by
  simp [portResetAsked]

@[simp] theorem hostInput_resetAsked (stream : List Byte) (c : Turn) (p : PortState) :
    portResetAsked (hostInput stream c p) = false := by
  unfold hostInput; split <;> rfl

@[simp] theorem hostInput_outReady (stream : List Byte) (c : Turn) (p : PortState) :
    (hostInput stream c p).outReady = c.accept := by
  unfold hostInput; split <;> rfl

/-- The host offers a byte exactly as long as the stream has one more. -/
theorem hostInput_inValid (stream : List Byte) (c : Turn) (p : PortState) :
    (hostInput stream c p).inValid = true ↔
      c.offer = true ∧ p.core.inp.length < stream.length := by
  unfold hostInput
  split
  · rename_i b hb
    have := (List.getElem?_eq_some_iff.mp hb).1
    simp [this]
  · rename_i hb
    have := List.getElem?_eq_none_iff.mp hb
    simp [this]

/-- The byte it offers is the next one of the stream. -/
theorem hostInput_inData {stream : List Byte} {c : Turn} {p : PortState}
    (h : (hostInput stream c p).inValid = true) :
    stream[p.core.inp.length]? = some (hostInput stream c p).inData := by
  unfold hostInput at *
  split at h
  · rename_i b hb; rw [hb]
  · cases h

theorem mayAccept_iff (p : PortState) : mayAccept p = true ↔
    busyFlag p.core = true ∧ p.left = 0 ∧ p.offering = false := by
  simp [mayAccept, and_assoc]

theorem step_settle {s t : State} (h : step s = .next t) : settle s = t := by
  simp [settle, h]

/-- The state of the last boundary, after a pixel. -/
theorem afterPixel_cases (pace : Pace) (p : PortState) :
    (p.left ≤ 1 ∧ afterPixel pace p = ⟨settle p.core, 0, false⟩) ∨
    (1 < p.left ∧ afterPixel pace p = ⟨p.core, p.left - 1, pace.outNow⟩) := by
  unfold afterPixel
  split
  · exact .inl ⟨‹_›, rfl⟩
  · exact .inr ⟨by omega, rfl⟩

/-- After a byte: buffered, or an operation without pixels done, or a chunk's pixels waiting. -/
theorem afterByte_shape (pace : Pace) (c : State) :
    ((∀ t, step c ≠ .next t) ∧ afterByte pace c = ⟨c, 0, false⟩) ∨
    ∃ t, step c = .next t ∧
      ((newPixels c = 0 ∧ afterByte pace c = ⟨t, 0, false⟩) ∨
        (0 < newPixels c ∧ afterByte pace c = ⟨c, newPixels c, pace.outNow⟩)) := by
  unfold afterByte
  split
  · rename_i t ht
    refine .inr ⟨t, ht, ?_⟩
    split
    · exact .inl ⟨‹_›, rfl⟩
    · exact .inr ⟨by omega, rfl⟩
  · rename_i h
    exact .inl ⟨fun t ht => h t ht, rfl⟩

/-- A reset cycle. -/
theorem tick_reset (pace : Pace) {i : PortIn} (p : PortState) (h : portResetAsked i = true) :
    tick pace i p = portReset := by
  simp [tick, h]

/-- Everything a cycle without a reset line can be, with its transfer. -/
theorem tick_cases (pace : Pace) {i : PortIn} (p : PortState) (h : portResetAsked i = false) :
    (p.offering = true ∧ i.outReady = true ∧ tick pace i p = afterPixel pace p ∧
      tickEvent pace i p = [.pixelOut (outPx p)]) ∨
    (p.offering = true ∧ i.outReady = false ∧ tick pace i p = p ∧ tickEvent pace i p = []) ∨
    (p.offering = false ∧ 0 < p.left ∧ tick pace i p = { p with offering := pace.outNow } ∧
      tickEvent pace i p = []) ∨
    (p.offering = false ∧ p.left = 0 ∧ busyFlag p.core = true ∧ pace.inNow = true ∧
      i.inValid = true ∧ tick pace i p = afterByte pace (offerByte p.core i.inData) ∧
      tickEvent pace i p = [.byteIn i.inData]) ∨
    (p.offering = false ∧ p.left = 0 ∧
      (busyFlag p.core = false ∨ pace.inNow = false ∨ i.inValid = false) ∧
      tick pace i p = p ∧ tickEvent pace i p = []) := by
  unfold tick tickEvent
  rcases p with ⟨core, left, offering⟩
  cases offering
  · cases hb : busyFlag core <;> cases hn : pace.inNow <;> cases hv : i.inValid <;>
      by_cases hl : left = 0 <;>
      simp [h, hb, hn, hl, inReady, outValid, mayAccept, Nat.pos_iff_ne_zero]
  · cases ho : i.outReady <;> simp [h, inReady, outValid, mayAccept]

end Sys2Proof.Machine
end

