-- ==== Sys2Proof/Tests/Slice0.lean ====
section
/-! SUPPORT. Tests against the spec's own vectors (spec/95_test_vectors.md) and witnesses that the
hypotheses of every statement can be met. -/

namespace Sys2Proof.Machine.Tests

open Sys2Proof Sys2Proof.Machine

/-! ## Helpers -/

/-- Bytes as a memory from address 0. -/
def load (bs : List Byte) : Memory := streamMemory bs

/-- The next state of a result, if it is one. -/
def nextOf (r : Result) : Option State :=
  match r with
  | .next t => some t
  | _ => none

/-- The four components of a pixel as numbers. -/
def px4 (p : Pixel) : List Nat := [p.r.toNat, p.g.toNat, p.b.toNat, p.a.toNat]

/-- A state in phase `chunk` with 3 channels, 64 pixels to write, and a pixel. -/
def inChunk (p : Pixel) : State :=
  { State.reset with phase := .chunk, ip := 14, channels := 3, width := 64, height := 1, px := p }

/-- `inChunk` with 4 channels. -/
def inChunk4 (p : Pixel) : State := { inChunk p with channels := 4 }

/-- The pixel after an operation, as numbers. -/
def pxAfter (i : Instr) (s : State) : Option (List Nat) := (nextOf (exec i s)).map fun t => px4 t.px

/-- The output bytes after an operation, as numbers. -/
def outAfter (i : Instr) (s : State) : Option (List Nat) :=
  (nextOf (exec i s)).map fun t => t.out.map fun c => c.2.toNat

/-- Phase, fault code, `ip`, `opx` after a result. -/
def control (r : Result) : Option (Phase × FaultCode × Nat × Nat) :=
  (nextOf r).map fun t => (t.phase, t.faultCode, t.ip, t.opx.toNat)

/-! ## Ill-formed operations are refused -/

theorem test_wf_run62_refused : (Instr.run 62).wellFormed = false := by decide
theorem test_wf_run63_refused : (Instr.run 63).wellFormed = false := by decide
theorem test_wf_run61_accepted : (Instr.run 61).wellFormed = true := by decide

/-! ## Decoding: words written out from spec/30_encoding.md R72 to R74, R77 -/

theorem test_decode_hdr : decode .header
    [0x71, 0x6F, 0x69, 0x66, 1, 2, 3, 4, 0, 0, 0, 2, 4, 7] =
    .ok (.hdr 0x716F6966 16909060 2 4 7, []) := by rfl
theorem test_decode_rgb : decode .chunk [0b11111110, 0xFE, 0xFF, 0xFE] =
    .ok (.rgb 254 255 254, []) := by rfl
theorem test_decode_rgba : decode .chunk [0b11111111, 10, 20, 30, 7] =
    .ok (.rgba 10 20 30 7, []) := by rfl
theorem test_decode_index : decode .chunk [0b00111111] = .ok (.index 63, []) := by rfl
theorem test_decode_diff : decode .chunk [0b01001110] = .ok (.diff 0 3 2, []) := by rfl
theorem test_decode_luma : decode .chunk [0b10011100, 0x3B] = .ok (.luma 28 3 11, []) := by rfl
theorem test_decode_run : decode .chunk [0b11000101] = .ok (.run 5, []) := by rfl
theorem test_decode_end : decode .trailer [0, 0, 0, 0, 0, 0, 0, 0x81] =
    .ok (.endOp 0x81, []) := by rfl
theorem test_decode_short_luma : decode .chunk [0x80] = .error (.truncated .chunk) := by rfl

/-- The spec's notation of program P3, lines `DIFF 1,-2,0` and `LUMA 10,3,-5` (R82). -/
theorem test_assemble_p3 : assemble (.diff 1 (-2) 0) = some [0x72] ∧
    assemble (.luma 10 3 (-5)) = some [0xAA, 0xB3] ∧ assemble (.run 63) = none := by decide

/-! ## The host's probe on one word of each row -/

theorem test_table_words :
    decodeTableWord 112 0x66696F71 = some (.hdr 0x716F6966 0 0 0 0) ∧
    decodeTableWord 8 0xFE = some (.rgb 0 0 0) ∧ decodeTableWord 8 0xFF = some (.rgba 0 0 0 0) ∧
    decodeTableWord 8 0x00 = some (.index 0) ∧ decodeTableWord 8 0x40 = some (.diff 0 0 0) ∧
    decodeTableWord 16 0x4580 = some (.luma 0 4 5) ∧ decodeTableWord 8 0xC0 = some (.run 0) ∧
    decodeTableWord 64 (2 ^ 56) = some (.endOp 1) := by decide +kernel

theorem test_probe_runs_first :
    control (step (State.reset.withFetchWord 112 (0x66696F71 + 3 * 2 ^ 96))) =
      some (.trailer, .none, 14, 0) ∧
    control (step (State.reset.withFetchWord 8 0xFE)) = some (.chunk, .none, 4, 1) ∧
    control (step (State.reset.withFetchWord 8 0xFD)) = some (.chunk, .none, 1, 62) ∧
    control (step (State.reset.withFetchWord 64 (2 ^ 56))) = some (.done, .none, 8, 0) := by
  decide +kernel

/-! ## Operations: the rows of spec/40_header.md and spec/95_test_vectors.md sections 2.3 to 2.9 -/

theorem test_hdr_big_endian : (nextOf (exec (.hdr 0x716F6966 0x100 2 3 0) State.reset)).map
    (fun t => (t.width.toNat, t.height.toNat, t.phase, t.ip)) = some (256, 2, .chunk, 14) := by
  decide +kernel
theorem test_hdr_magic_before_channels :
    control (exec (.hdr 0x716F6967 1 1 9 0) State.reset) = some (.fault, .badMagic, 14, 0) := by
  decide +kernel
theorem test_rgb_keeps_alpha :
    pxAfter (.rgb 2 1 0) (inChunk4 ⟨1, 2, 3, 4⟩) = some [2, 1, 0, 4] ∧
    outAfter (.rgb 2 1 0) (inChunk4 ⟨1, 2, 3, 4⟩) = some [2, 1, 0, 4] := by decide +kernel
theorem test_rgba_three_channels :
    pxAfter (.rgba 10 20 30 7) (inChunk ⟨0, 0, 0, 255⟩) = some [10, 20, 30, 7] ∧
    outAfter (.rgba 10 20 30 7) (inChunk ⟨0, 0, 0, 255⟩) = some [10, 20, 30] := by decide +kernel
theorem test_rgba_cache_slot : (nextOf (exec (.rgba 10 20 30 7) (inChunk ⟨0, 0, 0, 255⟩))).map
    (fun t => (px4 t.cache[33], px4 t.cache[53])) = some ([10, 20, 30, 7], [0, 0, 0, 0]) := by
  decide +kernel
/-- `INDEX 7` of an empty slot destroys slot 0 (row 4 of section 2.5). -/
theorem test_index_destroys_slot0 :
    (nextOf (exec (.index 7) { inChunk ⟨2, 1, 0, 255⟩ with
      cache := (Vector.replicate 64 ⟨0, 0, 0, 0⟩).set 0 ⟨2, 1, 0, 255⟩ })).map
      (fun t => (px4 t.px, px4 t.cache[0])) = some ([0, 0, 0, 0], [0, 0, 0, 0]) := by decide +kernel
theorem test_diff_field_order :
    pxAfter (.diff 2 1 0) (inChunk ⟨100, 100, 100, 255⟩) = some [100, 99, 98, 255] := by decide +kernel
theorem test_diff_wraps :
    pxAfter (.diff 0 0 3) (inChunk ⟨1, 0, 255, 9⟩) = some [255, 254, 0, 9] := by decide +kernel
theorem test_luma_nibbles :
    pxAfter (.luma 32 0 15) (inChunk ⟨100, 100, 100, 255⟩) = some [92, 100, 107, 255] := by
  decide +kernel
theorem test_luma_integer_green :
    pxAfter (.luma 0 8 8) (inChunk ⟨5, 30, 5, 255⟩) = some [229, 254, 229, 255] := by decide +kernel
theorem test_run_two_pixels :
    outAfter (.run 1) (inChunk4 ⟨0, 0, 0, 255⟩) = some [0, 0, 0, 255, 0, 0, 0, 255] := by
  decide +kernel
theorem test_run_overflow : control (exec (.run 2) { inChunk ⟨1, 1, 1, 255⟩ with opx := 62 }) =
    some (.fault, .runOverflow, 15, 62) := by decide +kernel
theorem test_end_order_matters :
    control (exec (.endOp 0x100) { State.reset with phase := .trailer, ip := 15 }) =
      some (.fault, .badTrailer, 23, 0) := by decide +kernel
theorem test_end_done :
    control (exec (.endOp 1) { State.reset with phase := .trailer, ip := 15 }) =
      some (.done, .none, 23, 0) := by decide +kernel

/-- The spec's table of section 2.1. -/
theorem test_hash_rows : [(⟨22, 0, 0, 0⟩ : Pixel), ⟨64, 0, 0, 0⟩, ⟨128, 64, 32, 255⟩,
    ⟨10, 20, 30, 7⟩, ⟨255, 0, 0, 255⟩, ⟨0, 255, 0, 255⟩].map (fun p => (pixelHash p).val) =
    [2, 0, 21, 33, 50, 48] := by decide +kernel

/-- A stream that ends inside a record is stuck (programs K1 to K3). -/
theorem test_stuck_in_header :
    step { State.reset with inp := load [0x71, 0x6F, 0x69, 0x66, 0, 0] } = .fault .stuckOnInput := by
  rfl

/-! ## The ports: the chunk of program P1, one transfer at a time (R54 to R56) -/

/-- A cycle that offers a byte. -/
def giving (b : Byte) : PortIn := ⟨false, false, true, b, false⟩

/-- A cycle that accepts a pixel and offers a byte at once. -/
def taking (b : Byte) : PortIn := ⟨false, false, true, b, true⟩

/-- The port decoder before the chunk of program P1. -/
def beforeRun : PortState :=
  { core := { inChunk ⟨0, 0, 0, 255⟩ with
      width := 1
      inp := load [0x71, 0x6F, 0x69, 0x66, 0, 0, 0, 1, 0, 0, 0, 1, 3, 0] }
    left := 0
    offering := false }

theorem test_port_no_read_ahead :
    let p := tick ⟨true, true⟩ (giving 0xC0) beforeRun
    inReady ⟨true, true⟩ (taking 0) p = false ∧ outPx p = 0x000000FF ∧ p.left = 1 ∧
    (portStatus p).stOpx = 0 ∧
    (tick ⟨true, true⟩ (taking 0) p).core.phase = .trailer := by decide +kernel

/-! ## Witnesses: states and operands that meet the hypotheses of each statement -/

/-- A result that is a next state with a property. -/
theorem next_with {r : Result} (P : State → Bool) (h : (nextOf r).any P = true) :
    ∃ t, r = .next t ∧ P t = true := by
  cases r with
  | next t => exact ⟨t, rfl, h⟩
  | fault f => cases h
  | refused f => cases h

/-- A result that is a next state. -/
theorem goes_on {r : Result} (h : (nextOf r).isSome = true) : ∃ t, r = .next t := by
  cases r with
  | next t => exact ⟨t, rfl⟩
  | fault f => cases h
  | refused f => cases h

/-- The 14 header bytes of a 64 by 1 image with 3 channels. -/
def head64 : List Byte := [0x71, 0x6F, 0x69, 0x66, 0, 0, 0, 64, 0, 0, 0, 1, 3, 0]

/-- Right after reset, the header in `IN`. -/
def atHdr : State := { State.reset with inp := load head64 }

/-- After the header, with chunk bytes in `IN`. -/
def atChunk (bs : List Byte) : State :=
  { inChunk ⟨0, 0, 0, 255⟩ with inp := load (head64 ++ bs) }

/-- Before the trailer of an empty image, with bytes in `IN`. -/
def atTrailer (bs : List Byte) : State :=
  { State.reset with phase := .trailer, ip := 14, channels := 3, inp := load (head64 ++ bs) }

/-- After such an image. -/
def atDone : State :=
  { atTrailer [0, 0, 0, 0, 0, 0, 0, 1] with phase := .done, ip := 22 }

/-- After a wrong magic. -/
def atFault : State := { atHdr with phase := .fault, faultCode := .badMagic, ip := 14 }

/-- `atChunk` with `n` pixels of the 64 counted as written. -/
def written (n : Nat) : State := { inChunk ⟨0, 0, 0, 255⟩ with opx := BitVec.ofNat 64 n }

/-- The same with 4 channels. -/
def written4 (n : Nat) : State := { written n with channels := 4 }

theorem atHdr_boundary : Boundary atHdr :=
  ⟨by unfold FilledTo; decide +kernel, rfl,
    by unfold CacheInv; decide +kernel,
    by decide, fun _ => ⟨rfl, rfl, rfl, rfl, rfl⟩, by simp [atHdr, State.reset], by simp [atHdr, State.reset], by simp [atHdr, State.reset],
    by simp [atHdr, State.reset], fun _ => ⟨rfl, rfl⟩⟩

theorem atChunk_boundary : Boundary (atChunk [0xFD, 0x80]) :=
  ⟨by unfold FilledTo; decide +kernel, rfl,
    by unfold CacheInv; decide +kernel, by decide,
    by simp [atChunk, inChunk], fun _ => ⟨.inl rfl, by decide, by decide⟩,
    by simp [atChunk, inChunk], by simp [atChunk, inChunk], by simp [atChunk, inChunk],
    fun _ => ⟨rfl, rfl⟩⟩

theorem atTrailer_boundary : Boundary (atTrailer [0, 0, 0, 0, 0, 0, 0, 1]) :=
  ⟨by unfold FilledTo; decide +kernel, rfl,
    by unfold CacheInv; decide +kernel, by decide, by simp [atTrailer],
    by simp [atTrailer], fun _ => ⟨.inl rfl, rfl⟩, by simp [atTrailer], by simp [atTrailer],
    fun _ => ⟨rfl, rfl⟩⟩

theorem atDone_boundary : Boundary atDone :=
  ⟨by unfold FilledTo; decide +kernel, rfl,
    by unfold CacheInv; decide +kernel, by decide, by simp [atDone],
    by simp [atDone], by simp [atDone], fun _ => ⟨rfl, rfl, rfl⟩, by simp [atDone],
    fun _ => ⟨rfl, rfl⟩⟩

theorem atFault_boundary : Boundary atFault :=
  ⟨by unfold FilledTo; decide +kernel, rfl,
    by unfold CacheInv; decide +kernel, by decide, by simp [atFault],
    by simp [atFault], by simp [atFault], by simp [atFault], fun _ => .inl rfl, by simp [atFault]⟩

theorem quiet_all : Quiet atHdr ∧ Quiet (atChunk [0xFD, 0x80]) ∧
    Quiet (atTrailer [0, 0, 0, 0, 0, 0, 0, 1]) ∧ Quiet atDone ∧ Quiet atFault :=
  ⟨⟨rfl, rfl⟩, ⟨rfl, rfl⟩, ⟨rfl, rfl⟩, ⟨rfl, rfl⟩, ⟨rfl, rfl⟩⟩

/-- In each phase a boundary state with no reset line sampled takes a step. -/
theorem step_all : (∃ t, step atHdr = .next t) ∧ (∃ t, step (atChunk [0xFD, 0x80]) = .next t) ∧
    (∃ t, step (atTrailer [0, 0, 0, 0, 0, 0, 0, 1]) = .next t) ∧ (∃ t, step atDone = .next t) ∧
    (∃ t, step atFault = .next t) :=
  ⟨goes_on (by decide +kernel), goes_on (by decide +kernel), goes_on (by decide +kernel),
    goes_on (by decide +kernel), goes_on (by decide +kernel)⟩

theorem chunk_ready (n : Nat) : ChunkReady (written n) ∧ ChunkReady (written4 n) :=
  ⟨⟨rfl, .inl rfl⟩, ⟨rfl, .inr rfl⟩⟩

/-! ### Encoding -/

theorem witness_DecodeEncodeRoundTrip :
    (Instr.run 61).wellFormed = true ∧ (Instr.endOp 0).wellFormed = true := by decide

theorem witness_EncodeDecodeRoundTrip :
    decode .chunk [0xFD, 9] = .ok (.run 61, [9]) := by rfl

/-- The ends of each range of control bytes. -/
theorem witness_ChunkOpcodeMap :
    (0x3F : Byte).toNat ≤ 0x3F ∧ (0x40 ≤ (0x40 : Byte).toNat ∧ (0x7F : Byte).toNat ≤ 0x7F) ∧
    (0x80 ≤ (0x80 : Byte).toNat ∧ (0xBF : Byte).toNat ≤ 0xBF) ∧
    (0xC0 ≤ (0xC0 : Byte).toNat ∧ (0xFD : Byte).toNat ≤ 0xFD) ∧
    (0xFE : Byte).toNat = 0xFE ∧ (0xFF : Byte).toNat = 0xFF := by decide
theorem test_map_ends :
    ([0x00, 0x3F, 0x40, 0x7F, 0x80, 0xBF, 0xC0, 0xFD, 0xFE, 0xFF] : List Byte).map
      (fun b => decode .chunk [b, 0x5A, 1, 2, 3]) =
    [.ok (.index 0, [0x5A, 1, 2, 3]), .ok (.index 63, [0x5A, 1, 2, 3]),
      .ok (.diff 0 0 0, [0x5A, 1, 2, 3]), .ok (.diff 3 3 3, [0x5A, 1, 2, 3]),
      .ok (.luma 0 5 10, [1, 2, 3]), .ok (.luma 63 5 10, [1, 2, 3]),
      .ok (.run 0, [0x5A, 1, 2, 3]), .ok (.run 61, [0x5A, 1, 2, 3]),
      .ok (.rgb 0x5A 1 2, [3]), .ok (.rgba 0x5A 1 2 3, [])] := by rfl

/-- Exactly long enough, and one byte too short. -/
theorem witness_LengthFromFirstByte :
    bytesNeeded 0xFE ≤ [0xFE, 1, 2, 3].length ∧ [0xFE, 1, 2].length < bytesNeeded 0xFE ∧
    bytesNeeded 0xFF ≤ [0xFF, 1, 2, 3, 4].length ∧ [0xFF, 1, 2, 3].length < bytesNeeded 0xFF ∧
    bytesNeeded 0xBF ≤ [0xBF, 1].length ∧ [0xBF].length < bytesNeeded 0xBF ∧
    bytesNeeded 0xFD ≤ [0xFD].length ∧ 14 ≤ head64.length ∧ (head64.drop 1).length < 14 ∧
    8 ≤ (encode (.endOp 1)).length ∧ ((encode (.endOp 1)).drop 1).length < 8 := by decide

theorem witness_AssemblerRoundTrip : (Instr.luma 63 15 0).wellFormed = true := by decide

theorem witness_AssemblerOneToOne :
    (∀ xs, AsmLine.diff (-2) 1 0 ≠ .bytes xs) ∧ assemble (.diff (-2) 1 0) = some [0x4E] :=
  ⟨fun _ h => (by cases h), by decide⟩

/-! ### The step -/

theorem witness_StepRunsDecodedInstruction :
    Quiet (atChunk [0xFD]) ∧ (Instr.run 61).wellFormed = true ∧
    recordOf (atChunk [0xFD]).phase = some (Instr.run 61).record ∧ HoldsAt (atChunk [0xFD]) (.run 61) :=
  ⟨⟨rfl, rfl⟩, by decide, rfl, holdsAt_of_memRead (by decide +kernel)⟩

/-- One byte short in each phase: no chunk byte, one byte of a `LUMA`, four of an `RGBA`. -/
theorem witness_StuckExactlyOnMissingByte :
    Quiet State.reset ∧ Missing State.reset .header ∧ Missing (atChunk []) .chunk ∧
    Missing (atChunk [0x80]) .chunk ∧ Missing (atChunk [0xFF, 1, 2, 3]) .chunk ∧
    Missing (atTrailer [0, 0, 0, 0, 0, 0, 0]) .trailer :=
  ⟨⟨rfl, rfl⟩, ⟨0, by decide, rfl⟩, .inl (by decide +kernel),
    .inr ⟨0x80, by decide +kernel, 1, by decide, by decide +kernel⟩,
    .inr ⟨0xFF, by decide +kernel, 4, by decide, by decide +kernel⟩, ⟨7, by decide, by decide +kernel⟩⟩
theorem test_stuck_in_luma : step (atChunk [0x80]) = .fault .stuckOnInput := by rfl

/-- The last two clauses: an operation outside its phase, and channel counts 2 and 5. -/
theorem witness_StepStopsOnlyOnMissingInput :
    Boundary (atChunk [0xFD, 0x80]) ∧ (∃ t, step (atChunk [0xFD, 0x80]) = .next t) ∧
    (written 0).phase ≠ phaseOf (Instr.endOp 1).record ∧ atDone.phase ≠ phaseOf (Instr.run 0).record ∧
    (Instr.run 62).record = .chunk ∧ Instr.run 62 ≠ .run 63 ∧ (written 0).phase = .chunk ∧
    ({ written 0 with channels := 2 } : State).channels ≠ 3 ∧
    ({ written 0 with channels := 5 } : State).channels ≠ 4 :=
  ⟨atChunk_boundary, step_all.2.1, by decide, by decide, rfl, by decide, rfl, by decide, by decide⟩

theorem witness_FaultPhaseIsSticky : atFault.phase = .fault ∧ Quiet atFault ∧
    ({ atFault with rst := true } : State).rst = true ∧
    ({ atFault with start := true } : State).start = true := ⟨rfl, ⟨rfl, rfl⟩, rfl, rfl⟩

theorem witness_DoneConsumesNothing : atDone.phase = .done ∧ Quiet atDone := ⟨rfl, ⟨rfl, rfl⟩⟩

theorem witness_ResetValues :
    ({ atDone with rst := true } : State).rst = true ∧
    ({ atFault with start := true } : State).start = true ∧
    (⟨true, false, true, 0, true⟩ : PortIn).rst = true ∧
    (⟨false, true, true, 0, true⟩ : PortIn).start = true := ⟨rfl, rfl, rfl, rfl⟩

/-! ### What each operation does: room for exactly the pixels, and one too few -/

theorem witness_HdrCompletes : State.reset.phase = .hdr ∧ ((3 : Byte) = 3 ∨ (3 : Byte) = 4) ∧
    ((4 : Byte) = 3 ∨ (4 : Byte) = 4) := ⟨rfl, .inl rfl, .inr rfl⟩

/-- The lowest and the highest bit of the magic. -/
theorem witness_HdrBadMagic : State.reset.phase = .hdr ∧ (0x716F6967 : Word32) ≠ 0x716F6966 ∧
    (0xF16F6966 : Word32) ≠ 0x716F6966 := by decide

theorem witness_HdrChannelCheck : State.reset.phase = .hdr ∧ ((2 : Byte) ≠ 3 ∧ (2 : Byte) ≠ 4) ∧
    ((5 : Byte) ≠ 3 ∧ (5 : Byte) ≠ 4) ∧ ((4 : Byte) = 3 ∨ (4 : Byte) = 4) := by decide

theorem witness_RgbResult : ChunkReady (written4 63) ∧ Fits (written4 63) 1 :=
  ⟨(chunk_ready 63).2, by unfold Fits; decide⟩
theorem witness_RgbaResult : ChunkReady (written 63) ∧ Fits (written 63) 1 :=
  ⟨(chunk_ready 63).1, by unfold Fits; decide⟩
theorem witness_IndexResult : ChunkReady (written 0) ∧ Fits (written 0) 1 ∧
    (63 : Fin 64).val = (63 : BitVec 6).toNat ∧ (0 : Fin 64).val = (0 : BitVec 6).toNat :=
  ⟨(chunk_ready 0).1, by unfold Fits; decide, rfl, rfl⟩
theorem witness_DiffResult : ChunkReady (written 63) ∧ Fits (written 63) 1 := witness_RgbaResult
theorem witness_LumaResult : ChunkReady (written4 63) ∧ Fits (written4 63) 1 := witness_RgbResult
theorem witness_RunResult : ChunkReady (written 2) ∧ (61 : BitVec 6).toNat ≤ 61 ∧
    Fits (written 2) ((61 : BitVec 6).toNat + 1) :=
  ⟨(chunk_ready 2).1, by decide, by unfold Fits; decide⟩

theorem witness_RunOverflowFaults : ChunkReady (written 3) ∧ (61 : BitVec 6).toNat ≤ 61 ∧
    (written 3).width.toNat * (written 3).height.toNat - (written 3).opx.toNat <
      (61 : BitVec 6).toNat + 1 :=
  ⟨(chunk_ready 3).1, by decide, by decide⟩

theorem witness_RunPayloadCheckIsDead :
    (written 0).phase = .chunk ∧ decode .chunk [0xFD] = .ok (.run 61, []) := ⟨rfl, rfl⟩

theorem witness_EndResult : (atTrailer []).phase = .trailer ∧ (0x100 : BitVec 64) ≠ 1 ∧
    (0 : BitVec 64) ≠ 1 := ⟨rfl, by decide, by decide⟩

/-! ### Frames, with and without a fault -/

theorem witness_HdrFrame :
    (∃ t, exec (.hdr 0x716F6966 64 1 3 0) State.reset = .next t ∧ decide (t.phase ≠ .fault) = true) ∧
    (∃ t, exec (.hdr 0 64 1 3 0) State.reset = .next t ∧ decide (t.phase = .fault) = true) :=
  ⟨next_with _ (by decide +kernel), next_with _ (by decide +kernel)⟩

theorem witness_EndFrame :
    (∃ t, exec (.endOp 1) (atTrailer []) = .next t ∧ decide (t.phase ≠ .fault) = true) ∧
    (∃ t, exec (.endOp 2) (atTrailer []) = .next t ∧ decide (t.phase = .fault) = true) :=
  ⟨next_with _ (by decide +kernel), next_with _ (by decide +kernel)⟩

theorem witness_ChunkFrame : (Instr.run 61).record = .chunk ∧
    (∃ t, exec (.run 61) (written 2) = .next t ∧ decide (t.phase ≠ .fault) = true) ∧
    (∃ t, exec (.run 61) (written 3) = .next t ∧ decide (t.phase = .fault) = true) ∧
    (∃ k : Fin 64, k ≠ pixelHash (written 2).px) ∧ (191 < outAddr (written 64)) :=
  ⟨rfl, next_with _ (by decide +kernel), next_with _ (by decide +kernel),
    ⟨0, by decide +kernel⟩, by decide +kernel⟩

/-! ### Faults and phases -/

theorem witness_FaultEntryExact :
    (∃ t, exec (.hdr 0 64 1 3 0) State.reset = .next t ∧ decide (t.phase = .fault) = true) ∧
    (∃ t, exec (.run 61) (written 3) = .next t ∧ decide (t.phase = .fault) = true) ∧
    (∃ t, exec (.endOp 2) (atTrailer []) = .next t ∧ decide (t.phase = .fault) = true) ∧
    (Instr.run 61).record ≠ .header :=
  ⟨witness_HdrFrame.2, witness_ChunkFrame.2.2.1, witness_EndFrame.2, by decide⟩

/-- One chunk before the last pixel, and the last. -/
theorem witness_NextPhaseByPixelCount : (Instr.index 0).record ≠ .trailer ∧
    (∃ t, exec (.hdr 0x716F6966 64 1 3 0) State.reset = .next t ∧ decide (t.phase ≠ .fault) = true) ∧
    (∃ t, exec (.index 0) (written 62) = .next t ∧ decide (t.phase ≠ .fault) = true) ∧
    (∃ t, exec (.index 0) (written 63) = .next t ∧ decide (t.phase ≠ .fault) = true) :=
  ⟨by decide, witness_HdrFrame.1, next_with _ (by decide +kernel), next_with _ (by decide +kernel)⟩

/-- Only a state no run reaches holds code 3 or 4. -/
theorem witness_UnreachableFaultCodes :
    (∃ t, step { atFault with faultCode := .badRunPayload } = .next t ∧
      decide (t.faultCode = .badRunPayload) = true) ∧
    (∃ t, step { atFault with faultCode := .invalidOp } = .next t ∧
      decide (t.faultCode = .invalidOp) = true) :=
  ⟨next_with _ (by decide +kernel), next_with _ (by decide +kernel)⟩

theorem witness_PhaseTransitions :
    (∃ t, step atHdr = .next t) ∧ (∃ t, step (atChunk [0xFD, 0x80]) = .next t) ∧
    (∃ t, step (atTrailer [0, 0, 0, 0, 0, 0, 0, 1]) = .next t) ∧ (∃ t, step atDone = .next t) ∧
    (∃ t, step atFault = .next t) ∧ (Quiet atHdr ∧ Quiet atFault) ∧
    ∃ t, step { atDone with rst := true } = .next t :=
  ⟨step_all.1, step_all.2.1, step_all.2.2.1, step_all.2.2.2.1, step_all.2.2.2.2,
    ⟨quiet_all.1, quiet_all.2.2.2.2⟩, goes_on (by decide +kernel)⟩

/-! ### Invariants -/

theorem witness_StepKeepsBoundary :
    (Boundary atHdr ∧ ∃ t, step atHdr = .next t) ∧
    (Boundary (atChunk [0xFD, 0x80]) ∧ ∃ t, step (atChunk [0xFD, 0x80]) = .next t) ∧
    (Boundary (atTrailer [0, 0, 0, 0, 0, 0, 0, 1]) ∧
      ∃ t, step (atTrailer [0, 0, 0, 0, 0, 0, 0, 1]) = .next t) ∧
    (Boundary atDone ∧ ∃ t, step atDone = .next t) ∧ (Boundary atFault ∧ ∃ t, step atFault = .next t) :=
  ⟨⟨atHdr_boundary, step_all.1⟩, ⟨atChunk_boundary, step_all.2.1⟩,
    ⟨atTrailer_boundary, step_all.2.2.1⟩, ⟨atDone_boundary, step_all.2.2.2.1⟩,
    ⟨atFault_boundary, step_all.2.2.2.2⟩⟩

theorem witness_StepKeepsCacheInvariant :
    CacheInv (atChunk [0xFD, 0x80]) ∧ ∃ t, step (atChunk [0xFD, 0x80]) = .next t :=
  ⟨atChunk_boundary.cache, step_all.2.1⟩

theorem witness_StepKeepsCanonicalMemory :
    Memory.wf (atChunk [0xFD, 0x80]).out = true ∧ Memory.wf (atChunk [0xFD, 0x80]).inp = true ∧
    ∃ t, step (atChunk [0xFD, 0x80]) = .next t :=
  ⟨by decide +kernel, by decide +kernel, step_all.2.1⟩

theorem witness_HeaderRegistersWrittenOnce :
    Quiet (atChunk [0xFD, 0x80]) ∧ (atChunk [0xFD, 0x80]).phase ≠ .hdr ∧
    ∃ t, step (atChunk [0xFD, 0x80]) = .next t := ⟨⟨rfl, rfl⟩, by decide, step_all.2.1⟩

theorem witness_InputReadInOrder :
    Quiet (atChunk [0xFD, 0x80]) ∧ ∃ t, step (atChunk [0xFD, 0x80]) = .next t :=
  ⟨⟨rfl, rfl⟩, step_all.2.1⟩

theorem witness_OutputAppendOnly :
    Boundary (atChunk [0xFD, 0x80]) ∧ Quiet (atChunk [0xFD, 0x80]) ∧
    ∃ t, step (atChunk [0xFD, 0x80]) = .next t := ⟨atChunk_boundary, ⟨rfl, rfl⟩, step_all.2.1⟩

theorem witness_CacheWritesOneSlot :
    Quiet (atChunk [0xFD, 0x80]) ∧ (∃ t, step (atChunk [0xFD, 0x80]) = .next t ∧
      decide ((0 : Fin 64) ≠ pixelHash t.px) = true) :=
  ⟨⟨rfl, rfl⟩, next_with _ (by decide +kernel)⟩

theorem witness_AlphaOnlyByRgbaAndIndex :
    (∃ t, exec (.rgb 1 2 3) (written 0) = .next t) ∧ (∀ r g b a, Instr.rgb 1 2 3 ≠ .rgba r g b a) ∧
    (∀ v, Instr.rgb 1 2 3 ≠ .index v) ∧ (∃ t, exec (.diff 0 1 2) (written 0) = .next t) ∧
    (∃ t, exec (.luma 0 1 2) (written 0) = .next t) :=
  ⟨goes_on (by decide +kernel), fun _ _ _ _ h => (by cases h), fun _ h => (by cases h),
    goes_on (by decide +kernel), goes_on (by decide +kernel)⟩

/-! ### Values -/

theorem witness_DeltaEightBitForms :
    (∃ t, exec (.diff 3 0 3) (written 63) = .next t ∧ decide (t.phase ≠ .fault) = true) ∧
    (∃ t, exec (.luma 63 15 0) (written 63) = .next t ∧ decide (t.phase ≠ .fault) = true) :=
  ⟨next_with _ (by decide +kernel), next_with _ (by decide +kernel)⟩

/-- A slot that holds a pixel of its own hash, and an empty one. -/
theorem witness_IndexCacheCases :
    ChunkReady (written 63) ∧ Fits (written 63) 1 ∧ (53 : Fin 64).val = (53 : BitVec 6).toNat ∧
    (written 63).cache[(53 : Fin 64)] = ⟨0, 0, 0, 0⟩ ∧
    pixelHash (cachePixel (written 63)).cache[(53 : Fin 64)] = 53 ∧
    ChunkReady (cachePixel (written 63)) ∧ Fits (cachePixel (written 63)) 1 :=
  ⟨(chunk_ready 63).1, by unfold Fits; decide, rfl, by decide +kernel, by decide +kernel,
    (chunk_ready 63).1, by unfold Fits; decide⟩

theorem witness_FirstRunWritesSlot53 : ChunkReady (written 0) ∧ (61 : BitVec 6).toNat ≤ 61 ∧
    Fits (written 0) ((61 : BitVec 6).toNat + 1) ∧ (written 0).px = ⟨0, 0, 0, 255⟩ :=
  ⟨(chunk_ready 0).1, by decide, by unfold Fits; decide, rfl⟩

theorem witness_StatusFlags : faultFlag atFault = true ∧ Quiet atFault ∧
    ∃ t, step atFault = .next t := ⟨rfl, ⟨rfl, rfl⟩, step_all.2.2.2.2⟩

/-- The last column of a row and the first of the next in an image of two rows; the first and the last
pixel of a run that ends at the last pixel of the image; a boundary in the middle and one at `DONE`. -/
theorem witness_PixelLayout : ((63 < ({ written 0 with height := 2 } : State).width.toNat) ∧
    (0 < ({ written 0 with height := 2 } : State).height.toNat) ∧
    (1 < ({ written 0 with height := 2 } : State).height.toNat) ∧
    (2 < ({ written 0 with height := 2 } : State).channels.toNat) ∧
    63 + 1 = ({ written 0 with height := 2 } : State).width.toNat) ∧
    ((Instr.run 61).record = .chunk ∧
    (∃ t, exec (.run 61) (written 2) = .next t ∧ decide (t.phase ≠ .fault) = true) ∧
    2 < (written 2).channels.toNat ∧ pixelIndex (written 2) 2 0 = (written 2).opx.toNat ∧
    (written 2).opx.toNat ≤ pixelIndex (written 2) 63 0 ∧
    pixelIndex (written 2) 63 0 < (written 2).opx.toNat + chunkRun (.run 61)) ∧
    (Boundary (atChunk [0xFD, 0x80]) ∧ 2 < (atChunk [0xFD, 0x80]).channels.toNat) ∧
    (Boundary atDone ∧ atDone.phase = .done) :=
  ⟨by decide, ⟨rfl, witness_ChunkFrame.2.1, by decide, by decide, by decide, by decide⟩,
    ⟨atChunk_boundary, by decide⟩, ⟨atDone_boundary, rfl⟩⟩

/-! ### Progress and whole streams -/

theorem witness_ChunkMakesProgress :
    Boundary (atChunk [0xFD, 0x80]) ∧ Quiet (atChunk [0xFD, 0x80]) ∧
    (atChunk [0xFD, 0x80]).phase = .chunk ∧ ∃ t, step (atChunk [0xFD, 0x80]) = .next t :=
  ⟨atChunk_boundary, ⟨rfl, rfl⟩, rfl, step_all.2.1⟩

/-- Turns that are fair although every second cycle does nothing. -/
def everySecond (n : Nat) : Turn := ⟨⟨n % 2 == 1, n % 2 == 1⟩, n % 2 == 1, n % 2 == 1⟩

theorem witness_RunEndsWithinStream :
    Boundary atHdr ∧ Quiet atHdr ∧ FairTurns everySecond ∧
    (∃ t, stepN 1 (onStream head64) = .next t) ∧
    (serveEvents head64 everySecond 28).countP PortEvent.isByte = 14 := by
  refine ⟨atHdr_boundary, ⟨rfl, rfl⟩, fun n => ?_, goes_on (by decide +kernel), by decide +kernel⟩
  have h : (2 * n + 1) % 2 = 1 := by omega
  exact ⟨⟨2 * n + 1, by omega, by simp [everySecond, h]⟩, ⟨2 * n + 1, by omega, by simp [everySecond, h]⟩,
    ⟨2 * n + 1, by omega, by simp [everySecond, h]⟩⟩

/-- A 1 by 1 image and a byte after its trailer. -/
def stream11 : List Byte :=
  streamBytes (.hdr 0x716F6966 1 1 4 0 :: [Instr.run 0] ++ [.endOp 1])

theorem witness_WellFormedStreamDecodes :
    FilledTo (load (stream11 ++ [9])) (load (stream11 ++ [9])).length ∧
    ((4 : Byte) = 3 ∨ (4 : Byte) = 4) ∧
    (∀ i ∈ [Instr.run 0], i.record = .chunk ∧ i.wellFormed = true) ∧
    ([Instr.run 0].map chunkRun).sum = (1 : Word32).toNat * (1 : Word32).toNat ∧
    HoldsStream { State.reset with inp := load (stream11 ++ [9]) }
      (streamBytes (.hdr 0x716F6966 1 1 4 0 :: [Instr.run 0] ++ [.endOp 1])) :=
  ⟨by unfold FilledTo; decide +kernel, .inr rfl,
    by decide, by decide, holdsStream_of_memRead (by decide +kernel)⟩

/-! ### What cannot matter -/

theorem witness_ColorspaceIgnored :
    (∃ t, exec (.hdr 0x716F6966 64 1 3 0) State.reset = .next t) ∧
    Quiet (atChunk [0xFD, 0x80]) ∧ (atChunk [0xFD, 0x80]).phase ≠ .hdr ∧
    (∃ t, step (atChunk [0xFD, 0x80]) = .next t) ∧
    Quiet (atChunk []) ∧ (atChunk []).phase ≠ .hdr ∧ step (atChunk []) = .fault .stuckOnInput :=
  ⟨goes_on (by decide +kernel), ⟨rfl, rfl⟩, by decide, step_all.2.1, ⟨rfl, rfl⟩, by decide, rfl⟩

theorem witness_OnlyPixelCountMatters :
    Quiet (atChunk [0xFD, 0x80]) ∧ (atChunk [0xFD, 0x80]).phase ≠ .hdr ∧
    (8 : Word32).toNat * (8 : Word32).toNat =
      (atChunk [0xFD, 0x80]).width.toNat * (atChunk [0xFD, 0x80]).height.toNat ∧
    (∃ t, step (atChunk [0xFD, 0x80]) = .next t) := ⟨⟨rfl, rfl⟩, by decide, by decide, step_all.2.1⟩

/-- Another stream that has only the byte of the `RUN` in common. -/
theorem witness_OtherBytesUnread : Quiet (atChunk [0xFD, 0x80]) ∧
    ∃ t, step (atChunk [0xFD, 0x80]) = .next t ∧
      ∀ a, (atChunk [0xFD, 0x80]).ip ≤ a → a < t.ip →
        readByte [(14, 0xFD)] a = readByte (atChunk [0xFD, 0x80]).inp a := by
  obtain ⟨t, ht, hp⟩ := next_with (r := step (atChunk [0xFD, 0x80]))
    (fun t => decide (t.ip = 15)) (by decide +kernel)
  refine ⟨⟨rfl, rfl⟩, t, ht, fun a h1 h2 => ?_⟩
  have h1 : 14 ≤ a := h1
  obtain rfl : a = 14 := by have := of_decide_eq_true hp; omega
  decide +kernel

theorem witness_InstancesIndependent : (1 : Nat) ≠ 0 ∧
    (stepInstance [atHdr, atDone] 0)[0]? = some (settle atHdr) ∧ settle atHdr ≠ atHdr :=
  ⟨by decide, rfl, by decide +kernel⟩

/-! ### Ports -/

/-- The port decoder while the pixel of that chunk is offered. -/
def offeringRun : PortState := tick ⟨true, true⟩ (giving 0xC0) beforeRun

theorem beforeRun_boundary : PortBoundary beforeRun :=
  ⟨⟨by unfold FilledTo; decide +kernel, rfl,
    by unfold CacheInv; decide +kernel, by decide, by simp [beforeRun, inChunk],
      fun _ => ⟨.inl rfl, by decide, by decide⟩, by simp [beforeRun, inChunk],
      by simp [beforeRun, inChunk], by simp [beforeRun, inChunk], fun _ => ⟨rfl, rfl⟩⟩,
    ⟨rfl, rfl⟩, by decide +kernel,
    fun _ => ⟨rfl, fun i h => by
      have : fetch beforeRun.core = .stuck := by decide +kernel
      rw [this] at h; cases h⟩,
    fun h => absurd h (by decide)⟩

/-- A chunk `RUN 2` read in an image of two pixels, with some pixels still to transfer. -/
def twoRun (left : Nat) (offering : Bool) : PortState :=
  { core := { inChunk ⟨0, 0, 0, 255⟩ with
      width := 2
      inp := load [0x71, 0x6F, 0x69, 0x66, 0, 0, 0, 2, 0, 0, 0, 1, 3, 0, 0xC1] }
    left := left
    offering := offering }

theorem twoRun_boundary (left : Nat) (offering : Bool) (h0 : 0 < left) (h2 : left ≤ 2) :
    PortBoundary (twoRun left offering) := by
  obtain ⟨t, ht, hp⟩ := next_with (r := step (twoRun left offering).core)
    (fun t => decide (t.opx.toNat = 2 ∧ t.ip = 15)) (by simp only [twoRun]; decide +kernel)
  obtain ⟨ho, hi⟩ := of_decide_eq_true hp
  refine ⟨⟨by simp only [twoRun]; unfold FilledTo; decide +kernel, rfl,
      by simp only [twoRun]; unfold CacheInv; decide +kernel, by simp only [twoRun]; decide,
      by simp [twoRun, inChunk],
      fun _ => ⟨.inl rfl, by simp only [twoRun]; decide, by simp only [twoRun]; decide⟩,
      by simp [twoRun, inChunk],
      by simp [twoRun, inChunk], by simp [twoRun, inChunk], fun _ => ⟨rfl, rfl⟩⟩,
    ⟨rfl, rfl⟩, by simp only [twoRun]; decide +kernel, fun h => ?_, fun _ => ⟨t, ht, ?_, ?_⟩⟩
  · simp only [twoRun] at h; omega
  · rw [ho]; exact h2
  · rw [hi]; simp only [twoRun]; decide +kernel

/-- The first of the two pixels transferred, the second offered. -/
theorem test_port_half_run : sentPixels (twoRun 1 true) = 1 ∧
    tick ⟨true, true⟩ (taking 0) (twoRun 2 true) = twoRun 1 true ∧
    (portStatus (twoRun 1 true)).stOpx = 1 ∧ (portView (twoRun 1 true)).out.length = 3 := by
  decide +kernel

/-- The busy decoder that waits for a byte, a waiting pixel not yet offered, the first and the last pixel
of a run offered. -/
theorem witness_PortHandshakes_positive :
    (PortBoundary beforeRun ∧ beforeRun.left = 0 ∧ busyFlag beforeRun.core = true) ∧
    (PortBoundary (twoRun 2 false) ∧ 0 < (twoRun 2 false).left ∧ (twoRun 2 false).offering = false) ∧
    (PortBoundary (twoRun 2 true) ∧ (twoRun 2 true).offering = true) ∧
    (PortBoundary (twoRun 1 true) ∧ (twoRun 1 true).left = 1) ∧
    ((giving 0).rst = false ∧ (giving 0).start = false ∧ (giving 0).inValid = true ∧
      (taking 0).outReady = true) ∧ ∃ t, step (twoRun 1 true).core = .next t :=
  ⟨⟨beforeRun_boundary, rfl, rfl⟩, ⟨twoRun_boundary _ _ (by decide) (by decide), by decide, rfl⟩,
    ⟨twoRun_boundary _ _ (by decide) (by decide), rfl⟩,
    ⟨twoRun_boundary _ _ (by decide) (by decide), rfl⟩, ⟨rfl, rfl, rfl, rfl⟩, goes_on (by decide +kernel)⟩

theorem witness_PortHandshakes :
    0 < offeringRun.left ∧ outValid (giving 0) offeringRun = true ∧ (giving 0).outReady = false ∧
    (⟨atDone, 0, false⟩ : PortState).core.phase = .done ∧
    (⟨atFault, 0, false⟩ : PortState).core.phase = .fault ∧
    (⟨true, false, true, 0, true⟩ : PortIn).rst = true ∧
    (⟨false, true, true, 0, true⟩ : PortIn).start = true := by decide +kernel

theorem witness_TickKeepsPortInvariant : PortBoundary beforeRun ∧
    (PortBoundary (twoRun 2 true) ∧ 0 < (twoRun 2 true).left) ∧ PortBoundary (twoRun 1 false) :=
  ⟨beforeRun_boundary, ⟨twoRun_boundary _ _ (by decide) (by decide), by decide⟩,
    twoRun_boundary _ _ (by decide) (by decide)⟩

theorem witness_PortsRefineModel :
    (∀ x ∈ [((⟨true, true⟩ : Pace), giving 0x71)], portResetAsked x.2 = false) ∧
    tickEvents [(⟨true, true⟩, giving 0x71)] portReset = [.byteIn 0x71] :=
  ⟨by decide, by decide +kernel⟩

/-- Nothing to transfer, and a run half transferred. -/
theorem witness_StatusPortsCountTransfers : (PortBoundary beforeRun ∧ beforeRun.left = 0) ∧
    PortBoundary (twoRun 1 true) ∧ 0 < sentPixels (twoRun 1 true) ∧
    ∃ t, step (twoRun 1 true).core = .next t :=
  ⟨⟨beforeRun_boundary, rfl⟩, twoRun_boundary _ _ (by decide) (by decide), by decide +kernel,
    goes_on (by decide +kernel)⟩

theorem witness_FourOutcomes : PortBoundary beforeRun ∧
    runEnd beforeRun = some .stuckOnInput ∧ runEnd offeringRun = some .stuckOnOutput ∧
    runEnd ⟨atDone, 0, false⟩ = some .done ∧ runEnd ⟨atFault, 0, false⟩ = some .fault ∧
    portResetAsked ⟨false, false, false, 0, false⟩ = false :=
  ⟨beforeRun_boundary, by decide +kernel, by decide +kernel, by decide +kernel, by decide +kernel, rfl⟩

end Sys2Proof.Machine.Tests
end

/-! # Proofs: the operation whose bytes stand at `ip` -/

section

namespace Sys2Proof.Machine

open Sys2Proof

/-! ## Words and their bytes -/

/-- Assembling the bytes of a word gives the word (R7). -/
@[simp] theorem be32_bytes (w : Word32) :
    be32 (byteOf32 w 0) (byteOf32 w 1) (byteOf32 w 2) (byteOf32 w 3) = w := by
  have h01 : byteOf32 w 0 ++ byteOf32 w 1 = w.extractLsb' 16 16 :=
    BitVec.extractLsb'_append_extractLsb'_eq_extractLsb' rfl
  have h012 : w.extractLsb' 16 16 ++ byteOf32 w 2 = w.extractLsb' 8 24 :=
    BitVec.extractLsb'_append_extractLsb'_eq_extractLsb' rfl
  have h0123 : w.extractLsb' 8 24 ++ byteOf32 w 3 = w.extractLsb' 0 32 :=
    BitVec.extractLsb'_append_extractLsb'_eq_extractLsb' rfl
  rw [be32, h01, h012, h0123, BitVec.extractLsb'_eq_self]

/-! ## Control bytes: a tag over a payload -/

@[simp] theorem opTag_append (t : BitVec 2) (p : BitVec 6) : opTag (t ++ p) = t :=
  BitVec.extractLsb'_append_eq_left

@[simp] theorem payload_append (t : BitVec 2) (p : BitVec 6) : payload (t ++ p) = p :=
  BitVec.extractLsb'_append_eq_right

/-- The control byte of `DIFF` is a tag over a payload too. -/
theorem diffByte_eq (t fr fg fb : BitVec 2) :
    (t ++ fr ++ fg ++ fb : Byte) = t ++ (fr ++ fg ++ fb : BitVec 6) := by
  calc t ++ fr ++ fg ++ fb = t ++ (fr ++ fg) ++ fb := congrArg (· ++ fb) BitVec.append_assoc
    _ = t ++ (fr ++ fg ++ fb) := BitVec.append_assoc

/-- The three fields of a `DIFF` control byte (format `D222`, R73). -/
theorem diffByte_fields (t fr fg fb : BitVec 2) :
    (t ++ fr ++ fg ++ fb : Byte).extractLsb' 4 2 = fr ∧
      (t ++ fr ++ fg ++ fb : Byte).extractLsb' 2 2 = fg ∧
      (t ++ fr ++ fg ++ fb : Byte).extractLsb' 0 2 = fb := by
  refine ⟨?_, ?_, BitVec.extractLsb'_append_eq_right⟩
  · rw [BitVec.extractLsb'_append_eq_of_le (by decide), BitVec.extractLsb'_append_eq_of_le (by decide)]
    exact BitVec.extractLsb'_append_eq_right
  · rw [BitVec.extractLsb'_append_eq_of_le (by decide)]
    exact BitVec.extractLsb'_append_eq_right

/-- Only tag 3 with payload 62 or 63 is a literal marker (R75, R80). -/
theorem append_ne_marker {t : BitVec 2} {p : BitVec 6} (h : t = 3 → runPayloadOk p = true) :
    (t ++ p : Byte) ≠ 254 ∧ (t ++ p : Byte) ≠ 255 := by
  have key (b : Byte) (hb : opTag b = 3) (hp : runPayloadOk (payload b) = false) : t ++ p ≠ b := by
    rintro rfl
    simp only [opTag_append, payload_append] at hb hp
    exact Bool.false_ne_true (hp.symm.trans (h hb))
  exact ⟨key 254 rfl rfl, key 255 rfl rfl⟩

/-- The classification of a control byte that is no literal marker is by its tag (R75). -/
theorem classify_append {t : BitVec 2} {p : BitVec 6} (h : t = 3 → runPayloadOk p = true) :
    classify (t ++ p) =
      if t = 0 then .index else if t = 1 then .diff else if t = 2 then .luma else .run := by
  obtain ⟨h254, h255⟩ := append_ne_marker h
  rw [classify, if_neg h254, if_neg h255, opTag_append]

/-- A control byte that is no literal marker asks for a second byte with tag 2 alone (R76). -/
theorem chunkLength_append {t : BitVec 2} {p : BitVec 6} (h : t = 3 → runPayloadOk p = true) :
    chunkLength (t ++ p) = if t = 2 then 2 else 1 := by
  obtain ⟨h254, h255⟩ := append_ne_marker h
  rw [chunkLength, if_neg h254, if_neg h255, opTag_append]

/-! ## Decoding an encoding -/

/-- The laws of `Laws.EncodeLength`, for every operation. -/
theorem encode_length (i : Instr) : (encode i).length = i.length :=
  match i with
  | .hdr m w h c cs => Laws.EncodeLength.hdr m w h c cs
  | .rgb r g b => Laws.EncodeLength.rgb r g b
  | .rgba r g b a => Laws.EncodeLength.rgba r g b a
  | .index v => Laws.EncodeLength.index v
  | .diff fr fg fb => Laws.EncodeLength.diff fr fg fb
  | .luma fg frg fbg => Laws.EncodeLength.luma fg frg fbg
  | .run v => Laws.EncodeLength.run v
  | .endOp b => Laws.EncodeLength.endOp b

/-- Decoding the bytes of an operation the stream can hold gives it back, whatever follows (R71 to R75). -/
theorem decode_encode (i : Instr) (rest : List Byte) (hw : i.wellFormed = true) :
    decode i.record (encode i ++ rest) = .ok (i, rest) := by
  cases i with
  | hdr m w h c cs =>
    show Except.ok (Instr.hdr (be32 _ _ _ _) (be32 _ _ _ _) (be32 _ _ _ _) c cs, rest) = _
    simp only [be32_bytes]
  | endOp b =>
    show Except.ok (Instr.endOp (be32 _ _ _ _ ++ be32 _ _ _ _), rest) = _
    rw [be32_bytes, be32_bytes, BitVec.extractLsb'_append_extractLsb']
  | rgb | rgba => rfl
  | index v =>
    have hc : classify (0#2 ++ v) = .index := classify_append (fun h => by cases h)
    show decodeChunkAs _ (classify _) _ = _
    rw [hc, decodeChunkAs, payload_append]
    rfl
  | diff fr fg fb =>
    have hc : classify (1#2 ++ fr ++ fg ++ fb) = .diff :=
      diffByte_eq .. ▸ classify_append (fun h => by cases h)
    obtain ⟨hr, hg, hb⟩ := diffByte_fields 1#2 fr fg fb
    show decodeChunkAs _ (classify _) _ = _
    rw [hc, decodeChunkAs, hr, hg, hb]
    rfl
  | luma fg frg fbg =>
    have hc : classify (2#2 ++ fg) = .luma := classify_append (fun h => by cases h)
    show decodeChunkAs _ (classify _) (_ :: rest) = _
    rw [hc, decodeChunkAs, payload_append, BitVec.extractLsb'_append_eq_left,
      BitVec.extractLsb'_append_eq_right]
  | run v =>
    have hc : classify (3#2 ++ v) = .run := classify_append fun _ => hw
    show decodeChunkAs _ (classify _) _ = _
    rw [hc, decodeChunkAs, payload_append]
    rfl

/-! ## Fetching -/

/-- `MemRead` answers the bytes of an operation that stands at `ip`: the converse of
`holdsAt_of_memRead`. -/
theorem memRead_of_holdsAt {s : State} {i : Instr} (h : HoldsAt s i) :
    memRead s.inp s.ip i.length = some (encode i) := by
  refine (memRead_eq_some _ _ _ _).mpr ⟨encode_length i, fun k hk => ?_⟩
  have hk : k < (encode i).length := (encode_length i).symm ▸ hk
  rw [h k _ (List.getElem?_eq_getElem hk), List.getElem?_eq_getElem hk]

/-- The control byte of a chunk asks for the whole chunk (R76). -/
theorem chunkLength_encode {i : Instr} (hi : i.record = .chunk) (hw : i.wellFormed = true) :
    ∃ b0, (encode i)[0]? = some b0 ∧ chunkLength b0 = i.length := by
  cases i with
  | hdr | endOp => cases hi
  | rgb | rgba => exact ⟨_, rfl, rfl⟩
  | index v => exact ⟨_, rfl, chunkLength_append fun h => by cases h⟩
  | diff fr fg fb => exact ⟨_, rfl, diffByte_eq .. ▸ chunkLength_append fun h => by cases h⟩
  | luma fg frg fbg => exact ⟨_, rfl, chunkLength_append fun h => by cases h⟩
  | run v => exact ⟨_, rfl, chunkLength_append fun _ => hw⟩

/-- Where a chunk's bytes stand at `ip`, its control byte is read and then the whole chunk (R43, R110). -/
theorem fetchBytes_chunk_of_holdsAt {s : State} {i : Instr} (hi : i.record = .chunk)
    (hw : i.wellFormed = true) (h : HoldsAt s i) :
    fetchBytes s.inp s.ip .chunk = some (encode i) := by
  obtain ⟨b0, h0, hl⟩ := chunkLength_encode hi hw
  have hb : readByte s.inp s.ip = some b0 := h 0 b0 h0
  rw [fetchBytes, hb, ← memRead_of_holdsAt h, ← hl]

/-- Where an operation's bytes stand at `ip`, they are what is read for its kind of record. -/
theorem fetchBytes_of_holdsAt {s : State} {i : Instr} (hw : i.wellFormed = true) (h : HoldsAt s i) :
    fetchBytes s.inp s.ip i.record = some (encode i) := by
  cases i with
  | hdr | endOp => exact memRead_of_holdsAt h
  | _ => exact fetchBytes_chunk_of_holdsAt rfl hw h

/-- An operation of the kind the phase reads whose bytes stand at `ip` is what a fetch finds (R110, R111). -/
theorem fetch_of_holdsAt {s : State} {i : Instr} (hw : i.wellFormed = true)
    (hr : recordOf s.phase = some i.record) (h : HoldsAt s i) : fetch s = .op i := by
  have hd : decode i.record (encode i) = .ok (i, []) := by
    rw [← decode_encode i [] hw, List.append_nil]
  simp [fetch, hr, fetchBytes_of_holdsAt hw h, hd]

/-- Settles O8: the fetch finds the operation that stands at `ip`, and the step is its execution. -/
theorem stepRunsDecodedInstruction : Obligations.StepRunsDecodedInstruction := by
  unfold Obligations.StepRunsDecodedInstruction
  intro s i hq hw hr h
  exact step_op (restartAsked_quiet hq) (fetch_of_holdsAt hw hr h)

end Sys2Proof.Machine
end

/-! # Proofs: the operation that a fetch finds stands at `ip` -/

section

namespace Sys2Proof.Machine

open Sys2Proof

/-! ## Encoding what was decoded -/

/-- A byte joined at the low end moves the bytes above it by 8 bits. -/
theorem extractByte_append {w : Nat} (x : BitVec w) (b : Byte) (k : Nat) :
    (x ++ b).extractLsb' (k + 8) 8 = x.extractLsb' k 8 := by
  rw [BitVec.extractLsb'_append_eq_of_le (Nat.le_add_left 8 k), Nat.add_sub_cancel]

/-- The bytes of an assembled word are the bytes it was assembled from (R7). -/
@[simp] theorem bytes32_be32 (b0 b1 b2 b3 : Byte) : bytes32 (be32 b0 b1 b2 b3) = [b0, b1, b2, b3] := by
  have h3 : byteOf32 (be32 b0 b1 b2 b3) 3 = b3 := BitVec.extractLsb'_append_eq_right
  have h2 : byteOf32 (be32 b0 b1 b2 b3) 2 = b2 :=
    (extractByte_append _ b3 0).trans BitVec.extractLsb'_append_eq_right
  have h1 : byteOf32 (be32 b0 b1 b2 b3) 1 = b1 :=
    ((extractByte_append _ b3 8).trans (extractByte_append _ b2 0)).trans
      BitVec.extractLsb'_append_eq_right
  have h0 : byteOf32 (be32 b0 b1 b2 b3) 0 = b0 :=
    ((extractByte_append _ b3 16).trans (extractByte_append _ b2 8)).trans
      BitVec.extractLsb'_append_eq_left
  rw [bytes32, h0, h1, h2, h3]

@[simp] theorem bytes64_be64 (b0 b1 b2 b3 b4 b5 b6 b7 : Byte) :
    bytes64 (be64 b0 b1 b2 b3 b4 b5 b6 b7) = [b0, b1, b2, b3, b4, b5, b6, b7] := by
  rw [bytes64, be64, BitVec.extractLsb'_append_eq_left, BitVec.extractLsb'_append_eq_right,
    bytes32_be32, bytes32_be32]
  rfl

/-- A byte is its tag over its payload (R6). -/
theorem opTag_append_payload (b : Byte) : opTag b ++ payload b = b :=
  (BitVec.extractLsb'_append_extractLsb'_eq_extractLsb' rfl).trans BitVec.extractLsb'_eq_self

/-- The payload of a byte is its three two-bit fields (format `D222`, R73). -/
theorem payload_fields (b : Byte) :
    b.extractLsb' 4 2 ++ b.extractLsb' 2 2 ++ b.extractLsb' 0 2 = payload b := by
  have h : b.extractLsb' 4 2 ++ b.extractLsb' 2 2 = b.extractLsb' 2 4 :=
    BitVec.extractLsb'_append_extractLsb'_eq_extractLsb' rfl
  rw [h]
  exact BitVec.extractLsb'_append_extractLsb'_eq_extractLsb' rfl

/-- A byte is its two four-bit fields (format `L644`, R73). -/
theorem nibbles_append (b : Byte) : b.extractLsb' 4 4 ++ b.extractLsb' 0 4 = b :=
  (BitVec.extractLsb'_append_extractLsb'_eq_extractLsb' rfl).trans BitVec.extractLsb'_eq_self

/-- What a control byte is, by its class (R75). -/
def ClassOf (b : Byte) : ChunkOp → Prop
  | .rgb => b = 254
  | .rgba => b = 255
  | .index => opTag b = 0
  | .diff => opTag b = 1
  | .luma => opTag b = 2
  | .run => opTag b = 3 ∧ b ≠ 254 ∧ b ≠ 255

theorem tag_cases (t : BitVec 2) : t = 0 ∨ t = 1 ∨ t = 2 ∨ t = 3 := by
  revert t; decide

theorem classOf_classify (b : Byte) : ClassOf b (classify b) := by
  unfold classify
  split; · assumption
  split; · assumption
  split; · assumption
  split; · assumption
  split; · assumption
  · have := tag_cases (opTag b)
    refine ⟨?_, ‹_›, ‹_›⟩
    tauto

/-- A control byte with tag 3 that is no literal marker has a payload `RUN` may have (R75, R80). -/
theorem runPayloadOk_payload {b : Byte} (ht : opTag b = 3) (h254 : b ≠ 254) (h255 : b ≠ 255) :
    runPayloadOk (payload b) = true := by
  have hb := opTag_append_payload b
  rw [ht] at hb
  have h62 : payload b ≠ 62 := fun h => h254 (by rw [← hb, h]; rfl)
  have h63 : payload b ≠ 63 := fun h => h255 (by rw [← hb, h]; rfl)
  simp only [runPayloadOk, decide_eq_true_eq, Config.longestRun]
  bv_omega

/-- What decodes from the bytes after a control byte encodes to them (R73, R82). -/
theorem encode_of_decodeChunkAs {b0 : Byte} {op : ChunkOp} {bs rest : List Byte} {i : Instr}
    (hop : ClassOf b0 op) (h : decodeChunkAs b0 op bs = .ok (i, rest)) :
    encode i ++ rest = b0 :: bs ∧ i.record = .chunk ∧ i.wellFormed = true := by
  have hb := opTag_append_payload b0
  unfold decodeChunkAs at h
  split at h <;> cases h
  case h_1 => cases hop; exact ⟨rfl, rfl, rfl⟩
  case h_2 => cases hop; exact ⟨rfl, rfl, rfl⟩
  case h_3 =>
    rw [show opTag b0 = 0 from hop] at hb
    exact ⟨congrArg (· :: _) hb, rfl, rfl⟩
  case h_4 =>
    rw [show opTag b0 = 1 from hop, ← payload_fields, ← diffByte_eq] at hb
    exact ⟨congrArg (· :: _) hb, rfl, rfl⟩
  case h_5 b1 =>
    rw [show opTag b0 = 2 from hop] at hb
    exact ⟨congrArg₂ (· :: · :: _) hb (nibbles_append b1), rfl, rfl⟩
  case h_6 =>
    obtain ⟨ht, h254, h255⟩ := hop
    rw [ht] at hb
    exact ⟨congrArg (· :: _) hb, rfl, runPayloadOk_payload ht h254 h255⟩

/-- Whatever decodes is the encoding of what it decodes to, of the kind of record asked for, and an
operation the stream can hold: the converse of `decode_encode`. -/
theorem encode_of_decode {r : Record} {bs rest : List Byte} {i : Instr}
    (h : decode r bs = .ok (i, rest)) :
    encode i ++ rest = bs ∧ i.record = r ∧ i.wellFormed = true := by
  cases r with
  | header =>
    change decodeHeader bs = _ at h
    unfold decodeHeader at h
    split at h <;> cases h
    exact ⟨by simp [encode], rfl, rfl⟩
  | trailer =>
    change decodeTrailer bs = _ at h
    unfold decodeTrailer at h
    split at h <;> cases h
    exact ⟨by simp [encode], rfl, rfl⟩
  | chunk =>
    cases bs with
    | nil => cases h
    | cons b0 bs => exact encode_of_decodeChunkAs (classOf_classify b0) h

/-! ## The fetched operation stands at `ip` -/

/-- The record bytes are read with one `MemRead` at `ip`. -/
theorem fetchBytes_eq_memRead {m : Memory} {ip : Nat} {r : Record} {bs : List Byte}
    (h : fetchBytes m ip r = some bs) : ∃ n, memRead m ip n = some bs := by
  cases r with
  | header | trailer => exact ⟨_, h⟩
  | chunk =>
    rw [fetchBytes] at h
    split at h
    · exact ⟨_, h⟩
    · cases h

/-- What a fetch finds is an operation of the kind the phase reads, one the stream can hold, and its bytes
stand at `ip`: the converse of `fetch_of_holdsAt`. -/
theorem fetch_op_holdsAt {s : State} {i : Instr} (h : fetch s = .op i) :
    recordOf s.phase = some i.record ∧ i.wellFormed = true ∧ HoldsAt s i := by
  obtain ⟨r, bs, rest, hr, hb, hd⟩ := fetch_op h
  obtain ⟨rfl, rfl, hw⟩ := encode_of_decode hd
  obtain ⟨n, hn⟩ := fetchBytes_eq_memRead hb
  obtain ⟨hl, hread⟩ := (memRead_eq_some _ _ _ _).mp hn
  refine ⟨hr, hw, fun k b hk => ?_⟩
  have hlt : k < (encode i).length := (List.getElem?_eq_some_iff.mp hk).1
  rw [hread k (by rw [← hl, List.length_append]; omega), List.getElem?_append_left hlt, hk]

/-- A step without a reset line is idle, or is the execution of the operation that stands at `ip`. -/
theorem step_quiet_cases {s t : State} (hq : Quiet s) (h : step s = .next t) :
    (recordOf s.phase = none ∧ t = s) ∨
    ∃ i, recordOf s.phase = some i.record ∧ i.wellFormed = true ∧ HoldsAt s i ∧
      exec i s = .next t := by
  have hr := restartAsked_quiet hq
  obtain ⟨h1, -⟩ | ⟨-, hn, rfl⟩ | ⟨-, i, hf, he⟩ := step_cases h
  · rw [hr] at h1; cases h1
  · exact .inl ⟨hn, rfl⟩
  · obtain ⟨hrec, hw, hh⟩ := fetch_op_holdsAt hf
    exact .inr ⟨i, hrec, hw, hh, he⟩

/-- A step that samples a reset line is a restart. -/
theorem step_restart {s : State} (h : s.rst = true ∨ s.start = true) :
    step s = .next (restart s) := by
  simp [step, (restartAsked_iff s).mpr h]

/-- A state either is quiet or has a reset line asserted. -/
theorem quiet_or_restart (s : State) : Quiet s ∨ (s.rst = true ∨ s.start = true) := by
  unfold Quiet
  cases s.rst <;> cases s.start <;> simp

end Sys2Proof.Machine
end

/-! # Proofs: `OUT` as a list, and what a step can be -/

section

namespace Sys2Proof.Machine

open Sys2Proof

/-! ## Memories filled from address 0 -/

/-- The cells of a byte list that stands from address `a` on. -/
def cellsFrom (a : Nat) (bs : List Byte) : Memory := (List.range' a bs.length).zip bs

@[simp] theorem cellsFrom_addresses (a : Nat) (bs : List Byte) :
    (cellsFrom a bs).map Prod.fst = List.range' a bs.length :=
  List.map_fst_zip (by simp)

@[simp] theorem cellsFrom_bytes (a : Nat) (bs : List Byte) : (cellsFrom a bs).map Prod.snd = bs :=
  List.map_snd_zip (by simp)

@[simp] theorem cellsFrom_length (a : Nat) (bs : List Byte) : (cellsFrom a bs).length = bs.length := by
  simp [cellsFrom]

theorem cellsFrom_cons (a : Nat) (b : Byte) (bs : List Byte) :
    cellsFrom a (b :: bs) = (a, b) :: cellsFrom (a + 1) bs := by
  simp [cellsFrom, List.range'_succ]

/-- A byte written above every listed address is listed last. -/
theorem writeByte_above {m : Memory} {a : Nat} (b : Byte) (h : ∀ c ∈ m, c.1 < a) :
    writeByte m a b = m ++ [(a, b)] := by
  induction m with
  | nil => rfl
  | cons c m ih =>
    have hc : c.1 < a := h c List.mem_cons_self
    rw [writeByte, if_neg (by omega), if_neg (by omega),
      ih fun d hd => h d (List.mem_cons_of_mem c hd)]
    rfl

/-- `MemWrite` above every listed address appends. -/
theorem memWrite_above (bs : List Byte) {m : Memory} {a : Nat} (h : ∀ c ∈ m, c.1 < a) :
    memWrite m a bs = m ++ cellsFrom a bs := by
  induction bs generalizing m a with
  | nil => simp [memWrite, cellsFrom]
  | cons b bs ih =>
    have hlt : ∀ c ∈ m ++ [(a, b)], c.1 < a + 1 := by
      intro c hc
      obtain hc | hc := List.mem_append.mp hc
      · exact Nat.lt_succ_of_lt (h c hc)
      · obtain rfl := List.mem_singleton.mp hc; exact Nat.lt_succ_self a
    rw [memWrite, writeByte_above b h, ih hlt, cellsFrom_cons, List.append_assoc]
    rfl

/-- Writing two byte lists one after the other is writing them joined. -/
theorem memWrite_append (bs cs : List Byte) (m : Memory) (a : Nat) :
    memWrite m a (bs ++ cs) = memWrite (memWrite m a bs) (a + bs.length) cs := by
  induction bs generalizing m a with
  | nil => rfl
  | cons b bs ih =>
    rw [List.cons_append, memWrite, ih, memWrite, List.length_cons, Nat.add_assoc, Nat.add_comm 1]

theorem FilledTo.lt {m : Memory} {n : Nat} (h : FilledTo m n) {c : Host.Cell} (hc : c ∈ m) :
    c.1 < n := by
  have : c.1 ∈ m.map Prod.fst := List.mem_map_of_mem hc
  rw [h] at this
  exact List.mem_range.mp this

theorem FilledTo.length {m : Memory} {n : Nat} (h : FilledTo m n) : m.length = n := by
  simpa using congrArg List.length h

/-- Bytes written at the end of a filled memory are appended to it. -/
theorem FilledTo.memWrite_eq {m : Memory} {n : Nat} (h : FilledTo m n) (bs : List Byte) :
    memWrite m n bs = m ++ cellsFrom n bs :=
  memWrite_above bs fun _ => h.lt

/-- Bytes written at the end of a filled memory leave it filled. -/
theorem FilledTo.memWrite {m : Memory} {n : Nat} (h : FilledTo m n) (bs : List Byte) :
    FilledTo (memWrite m n bs) (n + bs.length) := by
  have hm : m.map Prod.fst = List.range' 0 n := h.trans List.range_eq_range'
  have hr : List.range' 0 n ++ List.range' (0 + n) bs.length = List.range' 0 (n + bs.length) :=
    List.range'_append_1
  rw [Nat.zero_add] at hr
  rw [h.memWrite_eq, FilledTo, List.map_append, hm, cellsFrom_addresses, hr, List.range_eq_range']

theorem filledTo_nil : FilledTo [] 0 := rfl

/-! ## `OUT` after a run of pixel writes, as one write -/

/-- The output bytes of `k` equal pixels (R44, R112). -/
def runBytes (c : Byte) (p : Pixel) (k : Nat) : List Byte := (List.replicate k (pixelBytes c p)).flatten

theorem runBytes_succ (c : Byte) (p : Pixel) (k : Nat) :
    runBytes c p (k + 1) = pixelBytes c p ++ runBytes c p k := by
  simp [runBytes, List.replicate_succ]

theorem runBytes_length (c : Byte) (p : Pixel) (k : Nat) (hc : c = 3 ∨ c = 4) :
    (runBytes c p k).length = k * c.toNat := by
  simp [runBytes, pixelBytes_length c p hc]

/-- The address of the next pixel, after one has been written. -/
theorem outAddr_emitPixel {s : State} (h : s.opx.toNat + 1 < 2 ^ 64) :
    outAddr (emitPixel s) = outAddr s + s.channels.toNat := by
  have h1 : (emitPixel s).opx.toNat = s.opx.toNat + 1 := emitRun_opx 1 s h
  simp only [outAddr, h1, emitPixel_channels]
  ring

/-- `emitRun` is one `MemWrite` of the bytes of all its pixels. -/
theorem emitRun_out (k : Nat) (s : State) (hc : s.channels = 3 ∨ s.channels = 4)
    (h : s.opx.toNat + k < 2 ^ 64) :
    (emitRun k s).out = memWrite s.out (outAddr s) (runBytes s.channels s.px k) := by
  induction k generalizing s with
  | zero => rfl
  | succ k ih =>
    have h1 : (emitPixel s).opx.toNat = s.opx.toNat + 1 := emitRun_opx 1 s (by omega)
    rw [emitRun, ih (emitPixel s) hc (by omega), outAddr_emitPixel (by omega), emitPixel_out,
      emitPixel_channels, emitPixel_px, runBytes_succ, memWrite_append,
      pixelBytes_length _ _ hc]

/-- The memory a run of pixel writes leaves is filled to the new pixel counter. -/
theorem filledTo_runBytes {m : Memory} {n k : Nat} {c : Byte} (p : Pixel)
    (h : FilledTo m (n * c.toNat)) (hc : c = 3 ∨ c = 4) :
    FilledTo (memWrite m (n * c.toNat) (runBytes c p k)) ((n + k) * c.toNat) := by
  have := h.memWrite (runBytes c p k)
  rwa [runBytes_length c p k hc, ← Nat.add_mul] at this

/-! ## A committed chunk -/

/-- A chunk of `n` bytes that has yielded pixel `p` and written it `run` times: its precondition, all that
`ChunkDone` says, and `OUT` as a list. -/
structure ChunkCommitted (s t : State) (n : Nat) (p : Pixel) (run : Nat) : Prop where
  ready : ChunkReady s
  fits : Fits s run
  run_pos : 0 < run
  done : ChunkDone s t n p run
  out : t.out = memWrite s.out (outAddr s) (runBytes s.channels p run)

theorem commit_out {a n : Nat} {p : Pixel} {run : Nat} {s : State} (h : ¬ pixelsLeft s < run) :
    (commit a n p run s).out = (emitRun run (setPx p s)).out := by
  rw [commit, if_neg h]
  rfl

/-- `OUT` after a chunk step whose run fits. -/
theorem chunkStep_out {n : Nat} {p : Pixel} {run : Nat} {s t : State} (hr : ChunkReady s)
    (hpos : 0 < run) (hf : Fits s run) (h : chunkStep n p run s = .next t) :
    t.out = memWrite s.out (outAddr s) (runBytes s.channels p run) := by
  have hbound : s.opx.toNat + run < 2 ^ 64 := lt_of_le_of_lt hf (pixelCount_lt s)
  have hfit : ¬ pixelsLeft (advanceIp n s) < run := by
    rw [pixelsLeft_lt_iff _ _ hpos]; exact not_not_intro hf
  rw [chunkStep_ready n p run s hr] at h
  cases h
  rw [commit_out hfit]
  exact emitRun_out run (setPx p (advanceIp n s)) hr.2 hbound

/-- A chunk the stream can hold that has a next state is committed, or overflows the image (R112, R162). -/
theorem exec_chunk_committed {i : Instr} {s t : State} (hi : i.record = .chunk)
    (hw : i.wellFormed = true) (h : exec i s = .next t) :
    ChunkCommitted s t i.length (chunkPixel i s) (chunkRun i) ∨
      (ChunkReady s ∧ t = raiseFault .runOverflow s.ip i.length s) := by
  have h63 : i ≠ .run 63 := by rintro rfl; cases hw
  obtain ⟨-, ⟨hr, hf, hd⟩ | ⟨hr, -, rfl⟩ | ⟨h', -⟩⟩ := exec_chunk_cases hi h
  · rw [exec_chunk i s hi h63] at h
    exact .inl ⟨hr, hf, chunkRun_pos i, hd, chunkStep_out hr (chunkRun_pos i) hf h⟩
  · exact .inr ⟨hr, rfl⟩
  · exact absurd h' h63

/-! ## What a step can be -/

/-- Everything a step without a reset line can do, by the phase it starts in (R18, R117). -/
inductive StepCase (s : State) : State → Prop
  /-- The two final phases (R172, R189). -/
  | idle (hp : s.phase = .done ∨ s.phase = .fault) : StepCase s s
  /-- A header with a wrong magic or channel count (R101, R102). -/
  | headerFault (hp : s.phase = .hdr) (w h : Word32) (c cs : Byte) (code : FaultCode)
    (hcode : code = .badMagic ∨ code = .badChannels) :
    StepCase s (raiseFault code s.ip 14 (advanceIp 14 (latchHeader w h c cs s)))
  /-- A header that is taken (R103). -/
  | header (hp : s.phase = .hdr) (w h : Word32) (c cs : Byte) (hc : c = 3 ∨ c = 4) (u : State)
    (hu : u = advanceIp 14 (latchHeader w h c cs s)) : StepCase s (setPhase (nextPhase u) u)
  /-- A chunk whose run does not fit (R162). -/
  | overflow (hp : s.phase = .chunk) (n : Nat) : StepCase s (raiseFault .runOverflow s.ip n s)
  /-- A chunk that is committed (R112). -/
  | chunk (n : Nat) (p : Pixel) (run : Nat) (t : State) (hd : ChunkCommitted s t n p run) : StepCase s t
  /-- The trailer (R170). -/
  | trailer (hp : s.phase = .trailer) : StepCase s (setPhase .done (advanceIp 8 s))
  /-- Other bytes at the trailer's place (R170). -/
  | badTrailer (hp : s.phase = .trailer) :
    StepCase s (raiseFault .badTrailer s.ip 8 (advanceIp 8 s))

theorem recordOf_eq_none {x : Phase} : recordOf x = none ↔ x = .done ∨ x = .fault := by
  cases x <;> simp [recordOf]

theorem stepCase_of_exec {i : Instr} {s t : State} (hw : i.wellFormed = true)
    (h : exec i s = .next t) : StepCase s t := by
  cases hi : i.record with
  | header =>
    cases i with
    | hdr m w h' c cs =>
      obtain ⟨hp, ⟨-, rfl⟩ | ⟨-, hc, rfl⟩ | ⟨-, -, rfl⟩⟩ := exec_hdr_cases h
      · exact .headerFault hp w h' c cs .badMagic (.inl rfl)
      · exact .header hp w h' c cs hc _ rfl
      · exact .headerFault hp w h' c cs .badChannels (.inr rfl)
    | _ => cases hi
  | trailer =>
    cases i with
    | endOp b =>
      obtain ⟨hp, ⟨-, rfl⟩ | ⟨-, rfl⟩⟩ := exec_end_cases h
      · exact .trailer hp
      · exact .badTrailer hp
    | _ => cases hi
  | chunk =>
    obtain hd | ⟨hr, rfl⟩ := exec_chunk_committed hi hw h
    · exact .chunk _ _ _ t hd
    · exact .overflow hr.1 _

theorem stepCase_of_step {s t : State} (hq : Quiet s) (h : step s = .next t) : StepCase s t := by
  obtain ⟨hn, rfl⟩ | ⟨i, -, hw, -, he⟩ := step_quiet_cases hq h
  · exact .idle (recordOf_eq_none.mp hn)
  · exact stepCase_of_exec hw he

/-- A step without a reset line commits a chunk, or leaves the pixel register, the cache, the pixel counter
and `OUT` alone. -/
theorem StepCase.samePixels_or_committed {s t : State} (h : StepCase s t) :
    SamePixels s t ∨ ∃ n p run, ChunkCommitted s t n p run := by
  cases h with
  | chunk n p run t hd => exact .inr ⟨n, p, run, hd⟩
  | header hp w h c cs hc u hu => subst hu; exact .inl ⟨rfl, rfl, rfl, rfl⟩
  | _ => exact .inl ⟨rfl, rfl, rfl, rfl⟩

end Sys2Proof.Machine
end

/-! # Proofs: the invariants and transitions of the state -/

section

namespace Sys2Proof.Machine

open Sys2Proof

/-! ## The host's inputs and the header registers -/

/-- No operation writes the host's inputs (R41). -/
theorem StepCase.sameHost {s t : State} (h : StepCase s t) : SameHost s t := by
  cases h with
  | chunk n p run t hd => exact hd.done.host
  | header hp w h c cs hc u hu => subst hu; exact ⟨rfl, rfl, rfl⟩
  | _ => exact ⟨rfl, rfl, rfl⟩

/-- No operation but `HDR` writes the header registers (R19). -/
theorem StepCase.sameHeader {s t : State} (h : StepCase s t) (hp : s.phase ≠ .hdr) :
    SameHeader s t := by
  cases h with
  | chunk n p run t hd => exact hd.done.header
  | headerFault hp' => exact absurd hp' hp
  | header hp' => exact absurd hp' hp
  | _ => exact ⟨rfl, rfl, rfl, rfl⟩

/-! ## The cache invariant -/

theorem cacheInv_restart (s : State) : CacheInv (restart s) := by
  intro i
  left
  simp

/-- A committed chunk keeps the cache invariant: it writes the slot of its pixel's own hash (R15). -/
theorem ChunkDone.cacheInv {s t : State} {n : Nat} {p : Pixel} {run : Nat}
    (hd : ChunkDone s t n p run) (hs : CacheInv s) : CacheInv t := by
  intro i
  rw [hd.cache i]
  split
  · next h => exact .inr h.symm
  · exact hs i

theorem StepCase.cacheInv {s t : State} (h : StepCase s t) (hs : CacheInv s) : CacheInv t := by
  obtain ⟨-, hc, -⟩ | ⟨n, p, run, hd⟩ := h.samePixels_or_committed
  · rwa [CacheInv, hc]
  · exact hd.done.cacheInv hs

/-! ## The operation boundary -/

/-- A restart leads to a boundary from any state whose `IN` is a stream (R26, R27). -/
theorem boundary_restart (s : State) (h : FilledTo s.inp s.inp.length) : Boundary (restart s) where
  inp := h
  out := filledTo_nil
  cache := cacheInv_restart s
  room := Nat.zero_le _
  hdr _ := ⟨rfl, rfl, rfl, rfl, rfl⟩
  chunk := nofun
  trailer := nofun
  done := nofun
  fault := nofun
  noFault _ := ⟨rfl, rfl⟩

/-- Fault entry with one of the codes a stream can raise leads to a boundary: the fault phase asks for
nothing but the invariants every phase has (R27, R188). -/
theorem boundary_raiseFault {code : FaultCode} (a n : Nat) {u : State}
    (hcode : code = .badMagic ∨ code = .badTrailer ∨ code = .badChannels ∨ code = .runOverflow)
    (hinp : FilledTo u.inp u.inp.length) (hout : FilledTo u.out (u.opx.toNat * u.channels.toNat))
    (hcache : CacheInv u) (hroom : u.opx.toNat ≤ u.width.toNat * u.height.toNat) :
    Boundary (raiseFault code a n u) where
  inp := hinp
  out := hout
  cache := hcache
  room := hroom
  hdr := nofun
  chunk := nofun
  trailer := nofun
  done := nofun
  fault _ := hcode
  noFault h := absurd rfl h

/-- A state whose phase is the one `next_phase()` gives is a boundary, where the header has been taken
and no fault (R27, R115). -/
theorem boundary_nextPhase {t : State} (hphase : t.phase = nextPhase t)
    (hinp : FilledTo t.inp t.inp.length) (hout : FilledTo t.out (t.opx.toNat * t.channels.toNat))
    (hcache : CacheInv t) (hroom : t.opx.toNat ≤ t.width.toNat * t.height.toNat)
    (hc : t.channels = 3 ∨ t.channels = 4) (hip : 14 ≤ t.ip)
    (hfault : t.faultCode = .none ∧ t.faultIp = 0) : Boundary t := by
  obtain ⟨hn, hP⟩ | ⟨hn, hP⟩ := nextPhase_cases t <;> rw [hn] at hphase
  · exact {
      inp := hinp, out := hout, cache := hcache, room := hroom, noFault := fun _ => hfault
      trailer := fun _ => ⟨hc, hP⟩
      hdr := by simp [hphase], chunk := by simp [hphase], done := by simp [hphase]
      fault := by simp [hphase] }
  · exact {
      inp := hinp, out := hout, cache := hcache, room := hroom, noFault := fun _ => hfault
      chunk := fun _ => ⟨hc, hip, lt_of_le_of_ne hroom hP⟩
      hdr := by simp [hphase], trailer := by simp [hphase], done := by simp [hphase]
      fault := by simp [hphase] }

/-- Before the header no pixel has been written, so `OUT` is filled whatever the channel count will be. -/
theorem Boundary.outEmpty {s : State} (hs : Boundary s) (hp : s.phase = .hdr) (c : Byte) :
    s.opx.toNat = 0 ∧ FilledTo s.out (s.opx.toNat * c.toNat) := by
  obtain ⟨-, hopx, hout, -⟩ := hs.hdr hp
  have h0 : s.opx.toNat = 0 := by rw [hopx]; rfl
  rw [h0, hout, Nat.zero_mul]
  exact ⟨rfl, filledTo_nil⟩

/-- A header that faults has written no pixel (R101, R102). -/
theorem Boundary.headerFault {s : State} (hs : Boundary s) (hp : s.phase = .hdr) (w h : Word32)
    (c cs : Byte) {code : FaultCode} (hcode : code = .badMagic ∨ code = .badChannels) :
    Boundary (raiseFault code s.ip 14 (advanceIp 14 (latchHeader w h c cs s))) := by
  obtain ⟨h0, hout⟩ := hs.outEmpty hp c
  have hroom : s.opx.toNat ≤ w.toNat * h.toNat := h0.le.trans (Nat.zero_le _)
  exact boundary_raiseFault _ _ (by tauto) hs.inp hout hs.cache hroom

/-- A header that is taken has written no pixel, and leaves `ip` at 14 (R103). -/
theorem Boundary.header {s : State} (hs : Boundary s) (hp : s.phase = .hdr) (w h : Word32) {c : Byte}
    (cs : Byte) (hc : c = 3 ∨ c = 4) {u : State}
    (hu : u = advanceIp 14 (latchHeader w h c cs s)) : Boundary (setPhase (nextPhase u) u) := by
  subst hu
  obtain ⟨h0, hout⟩ := hs.outEmpty hp c
  have hroom : s.opx.toNat ≤ w.toNat * h.toNat := h0.le.trans (Nat.zero_le _)
  have hnf := hs.noFault (by rw [hp]; decide)
  exact boundary_nextPhase rfl hs.inp hout hs.cache hroom hc (Nat.le_add_left 14 s.ip) hnf

/-- `OUT` after a committed chunk is the old one with the bytes of the new pixels appended. -/
theorem ChunkCommitted.out_eq {s t : State} {n : Nat} {p : Pixel} {run : Nat}
    (hd : ChunkCommitted s t n p run) (hs : Boundary s) :
    t.out = s.out ++ cellsFrom (outAddr s) (runBytes s.channels p run) := by
  rw [hd.out, outAddr, hs.out.memWrite_eq]

/-- A committed chunk leaves the phase `next_phase()` gives on the state it leaves (R115). -/
theorem ChunkDone.phase_eq_nextPhase {s t : State} {n : Nat} {p : Pixel} {run : Nat}
    (hd : ChunkDone s t n p run) : t.phase = nextPhase t := by
  obtain ⟨hw, hh, -⟩ := hd.header
  rw [hd.phase, nextPhase, pixelCount, hd.opx, hw, hh]

/-- A committed chunk leads to a boundary: `OUT` grows by the pixels counted, and the run fits (R112). -/
theorem Boundary.chunkCommitted {s t : State} {n : Nat} {p : Pixel} {run : Nat} (hs : Boundary s)
    (hd : ChunkCommitted s t n p run) : Boundary t := by
  obtain ⟨⟨hp, hc⟩, hfits, -, hdone, hout⟩ := hd
  obtain ⟨hw, hh, hch, -⟩ := hdone.header
  obtain ⟨hcode, hfip⟩ := hdone.fault
  have hfilled : FilledTo t.out (t.opx.toNat * t.channels.toNat) := by
    rw [hout, hdone.opx, hch]
    exact filledTo_runBytes p hs.out hc
  have hip : 14 ≤ t.ip := by
    obtain ⟨-, h14, -⟩ := hs.chunk hp
    rw [hdone.ip]
    omega
  refine boundary_nextPhase hdone.phase_eq_nextPhase ?_ hfilled (hdone.cacheInv hs.cache) ?_ ?_ hip ?_
  · rw [hdone.host.1]; exact hs.inp
  · rw [hdone.opx, hw, hh]; exact hfits
  · rwa [hch]
  · rw [hcode, hfip]; exact hs.noFault (by rw [hp]; decide)

/-- The right trailer leaves a whole image (R170). -/
theorem Boundary.trailerDone {s : State} (hs : Boundary s) (hp : s.phase = .trailer) :
    Boundary (setPhase .done (advanceIp 8 s)) := by
  obtain ⟨-, hP⟩ := hs.trailer hp
  obtain ⟨hcode, hfip⟩ := hs.noFault (by rw [hp]; decide)
  have hN : s.out.length = s.width.toNat * s.height.toNat * s.channels.toNat := by
    rw [hs.out.length, hP]
  exact {
    inp := hs.inp, out := hs.out, cache := hs.cache, room := hs.room
    done := fun _ => ⟨hP, hcode, hN⟩
    noFault := fun _ => ⟨hcode, hfip⟩
    hdr := nofun, chunk := nofun, trailer := nofun, fault := nofun }

theorem StepCase.boundary {s t : State} (h : StepCase s t) (hs : Boundary s) : Boundary t := by
  cases h with
  | idle => exact hs
  | headerFault hp w h c cs code hcode => exact hs.headerFault hp w h c cs hcode
  | header hp w h c cs hc u hu => exact hs.header hp w h cs hc hu
  | overflow hp n => exact boundary_raiseFault _ _ (by simp) hs.inp hs.out hs.cache hs.room
  | chunk n p run t hd => exact hs.chunkCommitted hd
  | trailer hp => exact hs.trailerDone hp
  | badTrailer hp => exact boundary_raiseFault _ _ (by simp) hs.inp hs.out hs.cache hs.room

/-! ## The obligations on steps -/

/-- Settles O34: a restart leads to the empty image, and each kind of step keeps the invariants. -/
theorem stepKeepsBoundary : Obligations.StepKeepsBoundary := by
  unfold Obligations.StepKeepsBoundary
  intro s t hs h
  obtain hq | hr := quiet_or_restart s
  · exact (stepCase_of_step hq h).boundary hs
  · rw [step_restart hr] at h
    cases h
    exact boundary_restart s hs.inp

/-- Settles O33: the reset state is a restart with the empty stream. -/
theorem resetIsBoundary : Obligations.ResetIsBoundary :=
  boundary_restart State.reset filledTo_nil

/-- The two edges of the table of R117 that take no fault and go on. -/
theorem nextPhase_edges {t : State} (h : t.phase = nextPhase t) :
    (t.phase = .chunk ∧ t.opx.toNat ≠ t.width.toNat * t.height.toNat) ∨
      (t.phase = .trailer ∧ t.opx.toNat = t.width.toNat * t.height.toNat) := by
  rw [h]
  exact (nextPhase_cases t).symm

/-- Settles O32: each kind of step is one edge of the table of R117. -/
theorem phaseTransitions : Obligations.PhaseTransitions := by
  unfold Obligations.PhaseTransitions
  intro s t h
  refine ⟨fun hr => ?_, fun hq => ?_⟩
  · rw [step_restart hr] at h
    cases h
    rfl
  · cases stepCase_of_step hq h with
    | idle hp => obtain hp | hp := hp <;> simp [hp]
    | headerFault hp w h c cs code hcode => simp [hp, hcode]
    | header hp w h c cs hc u hu =>
      have hedge := nextPhase_edges (t := setPhase (nextPhase u) u) rfl
      exact ⟨fun _ => hedge.imp_right .inl, by simp [hp], by simp [hp], by simp [hp]⟩
    | overflow hp n => simp [hp]
    | chunk n p run t hd =>
      have hp := hd.ready.1
      have hedge := nextPhase_edges hd.done.phase_eq_nextPhase
      exact ⟨by simp [hp], fun _ => hedge.imp_right .inl, by simp [hp], by simp [hp]⟩
    | trailer hp => simp [hp]
    | badTrailer hp => simp [hp]

/-- Settles O35: a restart empties the cache, and a chunk writes its pixel's own slot. -/
theorem stepKeepsCacheInvariant : Obligations.StepKeepsCacheInvariant := by
  unfold Obligations.StepKeepsCacheInvariant
  intro s t hs h
  obtain hq | hr := quiet_or_restart s
  · exact (stepCase_of_step hq h).cacheInv hs
  · rw [step_restart hr] at h
    cases h
    exact cacheInv_restart s

/-- Settles O37: every kind of step but `HDR`'s leaves them. -/
theorem headerRegistersWrittenOnce : Obligations.HeaderRegistersWrittenOnce := by
  unfold Obligations.HeaderRegistersWrittenOnce
  intro s t hq hp h
  exact (stepCase_of_step hq h).sameHeader hp

/-- An operation that has a next state moves `ip` by its length, with or without a fault (R16, R188). -/
theorem exec_ip {i : Instr} {s t : State} (hw : i.wellFormed = true) (h : exec i s = .next t) :
    t.ip = s.ip + i.length := by
  cases hi : i.record with
  | header =>
    cases i with
    | hdr m w h' c cs => obtain ⟨-, ⟨-, rfl⟩ | ⟨-, -, rfl⟩ | ⟨-, -, rfl⟩⟩ := exec_hdr_cases h <;> rfl
    | _ => cases hi
  | trailer =>
    cases i with
    | endOp b => obtain ⟨-, ⟨-, rfl⟩ | ⟨-, rfl⟩⟩ := exec_end_cases h <;> rfl
    | _ => cases hi
  | chunk =>
    obtain hd | ⟨-, rfl⟩ := exec_chunk_committed hi hw h
    · exact hd.done.ip
    · rfl

/-- Settles O38: what a fetch finds stands at `ip`, and its execution moves `ip` past it. -/
theorem inputReadInOrder : Obligations.InputReadInOrder := by
  unfold Obligations.InputReadInOrder
  intro s t hq h
  refine ⟨(stepCase_of_step hq h).sameHost.1, ?_⟩
  obtain ⟨hn, rfl⟩ | ⟨i, hr, hw, hh, he⟩ := step_quiet_cases hq h
  · exact .inl ⟨hn, rfl⟩
  · exact .inr ⟨i, hr, hw, hh, exec_ip hw he⟩

/-- Settles O39: only a committed chunk writes, and it appends its pixels. -/
theorem outputAppendOnly : Obligations.OutputAppendOnly := by
  unfold Obligations.OutputAppendOnly
  intro s t hs hq h
  obtain ⟨-, -, hopx, hout⟩ | ⟨n, p, run, hd⟩ := (stepCase_of_step hq h).samePixels_or_committed
  · rw [hopx, hout]
    exact ⟨le_rfl, [], by simp, by simp⟩
  · obtain ⟨-, -, hch, -⟩ := hd.done.header
    rw [hd.done.opx, hch, hd.out_eq hs, Nat.add_sub_cancel_left]
    refine ⟨Nat.le_add_right _ _, _, rfl, ?_⟩
    rw [cellsFrom_length, runBytes_length _ _ _ hd.ready.2]

/-- Settles O40: only a committed chunk writes the cache, in the slot of the pixel it leaves. -/
theorem cacheWritesOneSlot : Obligations.CacheWritesOneSlot := by
  unfold Obligations.CacheWritesOneSlot
  intro s t hq h k hk
  obtain ⟨-, hc, -⟩ | ⟨n, p, run, hd⟩ := (stepCase_of_step hq h).samePixels_or_committed
  · rw [hc]
  · rw [hd.done.px] at hk
    rw [hd.done.cache, if_neg hk]

/-- Settles O13: each of the three is the reset state field by field. -/
theorem resetValues : Obligations.ResetValues := by
  unfold Obligations.ResetValues
  refine ⟨fun s hr => ⟨restart s, step_restart hr, ?_⟩, ?_, fun pace i p hr => ?_⟩
  · simp
  · simp [State.reset]
  · simp [tick_reset pace p ((portResetAsked_iff i).mpr hr), State.reset]

/-- The slot index in 8-bit wrapping arithmetic: 64 divides 256 (R14). -/
theorem pixelHash_eightBit (p : Pixel) :
    (pixelHash p).val = (3 * p.r + 5 * p.g + 7 * p.b + 11 * p.a : BitVec 8).toNat % 64 := by
  simp only [pixelHash, hashSum, BitVec.toNat_add, BitVec.toNat_mul, BitVec.ofNat_eq_ofNat,
    BitVec.toNat_ofNat]
  omega

/-- Settles O42: the sum's bound from the components', and the 8-bit form. -/
theorem slotIndexLaw : Obligations.SlotIndexLaw := by
  unfold Obligations.SlotIndexLaw
  refine ⟨fun p => ⟨?_, rfl, pixelHash_eightBit p, Nat.le_of_lt_succ (pixelHash p).isLt⟩, ?_⟩
  · have hr := p.r.isLt
    have hg := p.g.isLt
    have hb := p.b.isLt
    have ha := p.a.isLt
    omega
  · decide

/-! ## The status flags -/

theorem doneFlag_iff (s : State) : doneFlag s = true ↔ s.phase = .done := by
  simp [doneFlag]

theorem faultFlag_iff (s : State) : faultFlag s = true ↔ s.phase = .fault := by
  simp [faultFlag]

theorem busyFlag_iff (s : State) :
    busyFlag s = true ↔ s.phase = .hdr ∨ s.phase = .chunk ∨ s.phase = .trailer := by
  simp [busyFlag, or_assoc]

theorem hdrValidFlag_iff (s : State) :
    hdrValidFlag s = true ↔ s.phase = .chunk ∨ s.phase = .trailer ∨ s.phase = .done ∨
      (s.phase = .fault ∧ (s.faultCode = .badTrailer ∨ s.faultCode = .runOverflow)) := by
  simp [hdrValidFlag, or_assoc]

/-- Settles O46: a step from phase `FAULT` is idle. -/
theorem statusFlags : Obligations.StatusFlags := by
  unfold Obligations.StatusFlags
  refine ⟨fun s => ⟨doneFlag_iff s, faultFlag_iff s, busyFlag_iff s, hdrValidFlag_iff s, ?_⟩,
    fun s t hf hq h => ?_⟩
  · rw [doneFlag_iff, faultFlag_iff]
    rintro ⟨hd, hf⟩
    cases hd.symm.trans hf
  · have hp := (faultFlag_iff s).mp hf
    obtain ⟨-, rfl⟩ | ⟨i, hr, -⟩ := step_quiet_cases hq h
    · exact hf
    · rw [hp] at hr
      cases hr

end Sys2Proof.Machine
end

/-! # Proofs: the ports after reset, and what the status ports show -/

section

namespace Sys2Proof.Machine

open Sys2Proof

/-- After reset no byte of the header is there. -/
theorem fetch_reset : fetch State.reset = .stuck := rfl

/-- Settles O56: after reset the decoder waits for the first byte. -/
theorem portResetBoundary : Obligations.PortResetBoundary where
  core := resetIsBoundary
  quiet := ⟨rfl, rfl⟩
  consumed := Nat.zero_le _
  collecting _ := ⟨rfl, fun i h => by rw [portReset_core, fetch_reset] at h; cases h⟩
  emitting h := absurd h (lt_irrefl 0)

/-! ## What the ports show -/

/-- The ports show the boundary state but for the pixel counter and `OUT`. -/
theorem portView_frame (p : PortState) :
    portView p = { p.core with opx := (portView p).opx, out := (portView p).out } := by
  unfold portView
  split
  · rfl
  · rw [emitRun_frame]

section
variable (p : PortState)
@[simp] theorem portView_ip : (portView p).ip = p.core.ip := by rw [portView_frame]
@[simp] theorem portView_width : (portView p).width = p.core.width := by rw [portView_frame]
@[simp] theorem portView_height : (portView p).height = p.core.height := by rw [portView_frame]
@[simp] theorem portView_channels : (portView p).channels = p.core.channels := by rw [portView_frame]
@[simp] theorem portView_colorspace : (portView p).colorspace = p.core.colorspace := by
  rw [portView_frame]
@[simp] theorem portView_phase : (portView p).phase = p.core.phase := by rw [portView_frame]
@[simp] theorem portView_faultCode : (portView p).faultCode = p.core.faultCode := by
  rw [portView_frame]
@[simp] theorem portView_faultIp : (portView p).faultIp = p.core.faultIp := by rw [portView_frame]
end

theorem portView_of_left_eq_zero {p : PortState} (h : p.left = 0) : portView p = p.core := by
  rw [portView, if_pos h]

theorem sentPixels_of_left_eq_zero {p : PortState} (h : p.left = 0) : sentPixels p = 0 := by
  rw [sentPixels, if_pos h]

/-- While pixels wait they are those of a chunk in its precondition, and the 64 bits of the pixel counter
hold the ones sent. -/
theorem PortBoundary.emitting_chunk {p : PortState} (hp : PortBoundary p) (hl : 0 < p.left) :
    ChunkReady p.core ∧ p.core.opx.toNat + sentPixels p < 2 ^ 64 := by
  obtain ⟨t, ht, hle, -⟩ := hp.emitting hl
  have hsent : sentPixels p = t.opx.toNat - p.core.opx.toNat - p.left := by
    rw [sentPixels, if_neg hl.ne', newPixels, step_settle ht]
  constructor
  · obtain ⟨-, -, hopx, -⟩ | ⟨n, q, run, hd⟩ :=
      (stepCase_of_step hp.quiet ht).samePixels_or_committed
    · rw [hopx] at hle; omega
    · exact hd.ready
  · have := t.opx.isLt
    omega

/-- The pixel counter as the ports show it counts the pixels sent (R17; log entry 5). -/
theorem portView_opx {p : PortState} (hp : PortBoundary p) :
    (portView p).opx.toNat = p.core.opx.toNat + sentPixels p := by
  obtain hl | hl := Nat.eq_zero_or_pos p.left
  · rw [portView_of_left_eq_zero hl, sentPixels_of_left_eq_zero hl, Nat.add_zero]
  · rw [portView, if_neg hl.ne']
    exact emitRun_opx _ _ (hp.emitting_chunk hl).2

/-- `OUT` as the host has received it is the boundary's with the pixels sent written (R25; log entry 5). -/
theorem portView_out {p : PortState} (hp : PortBoundary p) :
    (portView p).out = memWrite p.core.out (outAddr p.core)
      (runBytes p.core.channels (settle p.core).px (sentPixels p)) := by
  obtain hl | hl := Nat.eq_zero_or_pos p.left
  · rw [portView_of_left_eq_zero hl, sentPixels_of_left_eq_zero hl]
    rfl
  · obtain ⟨⟨-, hc⟩, hlt⟩ := hp.emitting_chunk hl
    rw [portView, if_neg hl.ne']
    exact emitRun_out _ { p.core with px := (settle p.core).px } hc hlt

/-- `OUT` as the host has received it is listed at the addresses of the pixels counted and no others. -/
theorem portView_out_filled {p : PortState} (hp : PortBoundary p) :
    FilledTo (portView p).out ((p.core.opx.toNat + sentPixels p) * p.core.channels.toNat) := by
  obtain hl | hl := Nat.eq_zero_or_pos p.left
  · rw [portView_of_left_eq_zero hl, sentPixels_of_left_eq_zero hl, Nat.add_zero]
    exact hp.core.out
  · rw [portView_out hp]
    exact filledTo_runBytes _ hp.core.out (hp.emitting_chunk hl).1.2

/-- The bytes of an output pixel, by the channel count (R44). -/
theorem pixelBytes_eq {c : Byte} (q : Pixel) (hc : c = 3 ∨ c = 4) :
    pixelBytes c q = if c = 3 then [q.r, q.g, q.b] else [q.r, q.g, q.b, q.a] := by
  obtain rfl | rfl := hc <;> rfl

/-- The bytes of `OUT` as the host has received them: the boundary's, then those of each pixel sent. -/
theorem portView_bytes {p : PortState} (hp : PortBoundary p) {t : State} (ht : step p.core = .next t) :
    (portView p).out.map Prod.snd = p.core.out.map Prod.snd ++
      (List.replicate (sentPixels p) (if p.core.channels = 3 then [t.px.r, t.px.g, t.px.b]
        else [t.px.r, t.px.g, t.px.b, t.px.a])).flatten := by
  rw [portView_out hp, outAddr, hp.core.out.memWrite_eq, List.map_append, cellsFrom_bytes,
    step_settle ht]
  obtain hl | hl := Nat.eq_zero_or_pos p.left
  · rw [sentPixels_of_left_eq_zero hl]
    rfl
  · rw [runBytes, pixelBytes_eq _ (hp.emitting_chunk hl).1.2]

/-- Settles O59: the ports show the boundary state with the pixels sent counted and written. -/
theorem statusPortsCountTransfers : Obligations.StatusPortsCountTransfers := by
  unfold Obligations.StatusPortsCountTransfers
  intro p hp
  refine ⟨⟨portView_opx hp, ?_, ?_⟩, ⟨?_, ?_, ?_, ?_⟩, ?_, ?_, ⟨?_, ?_, ?_, ?_⟩,
    portView_out_filled hp, fun t => portView_bytes hp, fun hl => ?_⟩
  · simp [portStatus, statusPorts]
  · simp [portStatus, statusPorts]
  · exact portView_width p
  · exact portView_height p
  · exact portView_channels p
  · exact portView_colorspace p
  · simp only [portStatus, statusPorts, portView_phase]
    cases p.core.phase <;> rfl
  · simp only [portStatus, statusPorts, portView_faultCode]
    cases p.core.faultCode <;> rfl
  · exact (doneFlag_iff _).trans (by rw [portView_phase])
  · exact (faultFlag_iff _).trans (by rw [portView_phase])
  · exact (busyFlag_iff _).trans (by rw [portView_phase])
  · exact (hdrValidFlag_iff _).trans (by rw [portView_phase, portView_faultCode])
  · rw [portView_of_left_eq_zero hl]

end Sys2Proof.Machine
end

/-! # Proofs: what an operation does not read -/

section

namespace Sys2Proof.Machine

open Sys2Proof

/-! ## Results under an update of the state -/

/-- A result with its next state updated; a stop stays as it is. -/
def mapNext (f : State → State) : Result → Result
  | .next t => .next (f t)
  | .fault x => .fault x
  | .refused r => .refused r

section
variable (f : State → State)
@[simp] theorem mapNext_next (t : State) : mapNext f (.next t) = .next (f t) := rfl
@[simp] theorem mapNext_fault (x : Fault) : mapNext f (.fault x) = .fault x := rfl
@[simp] theorem mapNext_refused (r : Refusal) : mapNext f (.refused r) = .refused r := rfl
end

/-- Another `IN`, and other header registers but for the channel count: what the meaning of a chunk or of
the trailer does not read, the product of `width` and `height` apart. -/
def withUnread (m : Memory) (w h : Word32) (cs : Byte) (s : State) : State :=
  { s with inp := m, width := w, height := h, colorspace := cs }

/-! ## Chunks and the trailer -/

section
variable (m : Memory) {w h : Word32} (cs : Byte)

/-- A run of pixel writes does not read them. -/
theorem emitRun_withUnread (k : Nat) (s : State) :
    emitRun k (withUnread m w h cs s) = withUnread m w h cs (emitRun k s) := by
  induction k generalizing s with
  | zero => rfl
  | succ k ih => exact ih (emitPixel s)

/-- `next_phase()` reads the product alone (R115). -/
theorem nextPhase_withUnread {s : State} (hP : w.toNat * h.toNat = pixelCount s) :
    nextPhase (withUnread m w h cs s) = nextPhase s := by
  have hc : pixelCount (withUnread m w h cs s) = pixelCount s := hP
  rw [nextPhase, hc]
  rfl

/-- The commit of a chunk reads the product alone (R112). -/
theorem commit_withUnread (a n : Nat) (p : Pixel) (run : Nat) {s : State}
    (hP : w.toNat * h.toNat = pixelCount s) :
    commit a n p run (withUnread m w h cs s) = withUnread m w h cs (commit a n p run s) := by
  have hl : pixelsLeft (withUnread m w h cs s) = pixelsLeft s := congrArg (· - s.opx.toNat) hP
  have hrun : cachePixel (emitRun run (setPx p (withUnread m w h cs s))) =
      withUnread m w h cs (cachePixel (emitRun run (setPx p s))) :=
    congrArg cachePixel (emitRun_withUnread m cs run (setPx p s))
  have hPrun : w.toNat * h.toNat = pixelCount (cachePixel (emitRun run (setPx p s))) := by
    simpa [pixelCount] using hP
  rw [commit, commit, hl, hrun]
  split
  · rfl
  · simp only [nextPhase_withUnread m cs hPrun]
    rfl

/-- A chunk step reads the product alone (R110). -/
theorem chunkStep_withUnread (n : Nat) (p : Pixel) (run : Nat) {s : State}
    (hP : w.toNat * h.toNat = pixelCount s) :
    chunkStep n p run (withUnread m w h cs s) =
      mapNext (withUnread m w h cs) (chunkStep n p run s) := by
  have hcommit := commit_withUnread m cs s.ip n p run (s := advanceIp n s) hP
  simp only [chunkStep, show (withUnread m w h cs s).phase = s.phase from rfl,
    show (withUnread m w h cs s).channels = s.channels from rfl]
  split
  · rfl
  · split
    · exact congrArg Host.Outcome.next hcommit
    · rfl

/-- The meaning of a chunk or of the trailer reads neither `IN` nor `colorspace`, and of `width` and
`height` their product alone (R41, R42, R104). -/
theorem exec_withUnread {i : Instr} (hi : i.record ≠ .header) {s : State}
    (hP : w.toNat * h.toNat = pixelCount s) :
    exec i (withUnread m w h cs s) = mapNext (withUnread m w h cs) (exec i s) := by
  cases i with
  | hdr => exact absurd rfl hi
  | endOp b =>
    simp only [exec, execEnd, show (withUnread m w h cs s).phase = s.phase from rfl]
    split
    · rfl
    · split <;> rfl
  | run v =>
    simp only [exec, execRun, show (withUnread m w h cs s).phase = s.phase from rfl]
    split
    · rfl
    · exact chunkStep_withUnread m cs _ _ _ hP
  | _ => exact chunkStep_withUnread m cs _ _ _ hP

end

/-- `HDR` does not read `IN` again: its fields are operands (R100). -/
theorem exec_hdr_withInp (magic w h : Word32) (c cs : Byte) (m : Memory) (s : State) :
    exec (.hdr magic w h c cs) { s with inp := m } =
      mapNext (fun t => { t with inp := m }) (exec (.hdr magic w h c cs) s) := by
  simp only [exec, execHdr]
  split
  · rfl
  · split
    · rfl
    · split <;> rfl

/-! ## Steps -/

/-- A record is read in its own phase alone (R70). -/
theorem recordOf_eq_some {x : Phase} {r : Record} : recordOf x = some r ↔ x = phaseOf r := by
  cases x <;> cases r <;> decide

theorem phaseOf_eq_hdr {r : Record} : phaseOf r = .hdr ↔ r = .header := by
  cases r <;> decide

/-- An operation of the kind the phase reads does the same with another `IN` (R41). -/
theorem exec_withInp {i : Instr} {s t : State} (m : Memory) (hw : i.wellFormed = true)
    (hr : recordOf s.phase = some i.record) (h : exec i s = .next t) :
    exec i { s with inp := m } = .next { t with inp := m } := by
  by_cases hi : i.record = .header
  · cases i with
    | hdr magic w h' c cs => rw [exec_hdr_withInp, h, mapNext_next]
    | _ => cases hi
  · have hp : s.phase ≠ .hdr := by rwa [recordOf_eq_some.mp hr, ne_eq, phaseOf_eq_hdr]
    obtain ⟨hwidth, hheight, -, hcs⟩ := (stepCase_of_exec hw h).sameHeader hp
    refine (exec_withUnread m s.colorspace hi (s := s) rfl).trans ?_
    rw [h, mapNext_next, withUnread, ← hwidth, ← hheight, ← hcs]

/-- Settles O53: the other memory holds the same operation at `ip`, and no meaning reads `IN`. -/
theorem otherBytesUnread : Obligations.OtherBytesUnread := by
  unfold Obligations.OtherBytesUnread
  intro s t m hq h hm
  have hq' : restartAsked { s with inp := m } = false := restartAsked_quiet hq
  obtain ⟨hn, rfl⟩ | ⟨i, hr, hw, hh, he⟩ := step_quiet_cases hq h
  · exact step_idle hq' ((fetch_idle_iff _).mpr hn)
  · have hip := exec_ip hw he
    have hh' : HoldsAt { s with inp := m } i := by
      intro k b hk
      have hlt : k < (encode i).length := (List.getElem?_eq_some_iff.mp hk).1
      rw [encode_length] at hlt
      exact (hm _ (Nat.le_add_right _ _) (by omega)).trans (hh k b hk)
    rw [step_op hq' (fetch_of_holdsAt hw hr hh')]
    exact exec_withInp m hw hr he

/-- After the header a step with another pair of the same product has the same result but for the pair. -/
theorem step_withSize {s : State} {w h : Word32} (hq : Quiet s) (hp : s.phase ≠ .hdr)
    (hP : w.toNat * h.toNat = s.width.toNat * s.height.toNat) :
    step { s with width := w, height := h } =
      mapNext (fun t => { t with width := w, height := h }) (step s) := by
  have hq' : restartAsked { s with width := w, height := h } = false := restartAsked_quiet hq
  have hqs := restartAsked_quiet hq
  have hfetch : fetch { s with width := w, height := h } = fetch s := rfl
  cases hf : fetch s with
  | idle => rw [step_idle hqs hf, step_idle hq' (hfetch.trans hf)]; rfl
  | stuck => rw [step_stuck hqs hf, step_stuck hq' (hfetch.trans hf)]; rfl
  | op i =>
    obtain ⟨hr, hw, -⟩ := fetch_op_holdsAt hf
    have hi : i.record ≠ .header := by rwa [recordOf_eq_some.mp hr, ne_eq, phaseOf_eq_hdr] at hp
    rw [step_op hqs hf, step_op hq' (hfetch.trans hf)]
    refine (exec_withUnread s.inp s.colorspace hi hP).trans ?_
    cases he : exec i s with
    | next t =>
      have hcase := stepCase_of_exec hw he
      obtain ⟨-, -, -, hcs⟩ := hcase.sameHeader hp
      rw [mapNext_next, mapNext_next, withUnread, ← hcs, ← hcase.sameHost.1]
    | fault f => rfl
    | refused r => rfl

/-- Settles O52: the two results differ in the pair alone. -/
theorem onlyPixelCountMatters : Obligations.OnlyPixelCountMatters := by
  unfold Obligations.OnlyPixelCountMatters
  intro s w h hq hp hP
  have hstep := step_withSize hq hp hP
  exact ⟨fun t ht => by rw [hstep, ht, mapNext_next], fun f hf => by rw [hstep, hf, mapNext_fault]⟩

end Sys2Proof.Machine
end

/-! # Proofs: where a step stops -/

section

namespace Sys2Proof.Machine

open Sys2Proof

/-! ## Missing bytes -/

/-- `MemRead` answers nothing exactly where one of its bytes is missing (R43). -/
theorem memRead_eq_none (m : Memory) (a n : Nat) :
    memRead m a n = none ↔ ∃ k < n, readByte m (a + k) = none := by
  induction n generalizing a with
  | zero => simp [memRead]
  | succ n ih =>
    have hsplit : memRead m a (n + 1) = none ↔ readByte m a = none ∨ memRead m (a + 1) n = none := by
      rw [memRead]
      cases readByte m a <;> cases memRead m (a + 1) n <;> simp
    rw [hsplit, ih, Nat.exists_lt_succ_left]
    simp only [Nat.add_zero, Nat.add_assoc, Nat.add_comm 1]

/-- The length the model reads off a control byte is the spec's (R76). -/
theorem chunkLength_eq_bytesNeeded (b0 : Byte) : chunkLength b0 = bytesNeeded b0 := by
  have htag : (opTag b0).toNat = b0.toNat / 64 := by
    have := b0.isLt
    rw [opTag, BitVec.extractLsb'_toNat, Nat.shiftRight_eq_div_pow]
    omega
  have h2 : opTag b0 = 2 ↔ b0.toNat / 64 = 2 := by
    rw [← htag, ← BitVec.toNat_inj]
    rfl
  simp only [chunkLength, bytesNeeded, h2]

/-- A record is not read exactly where a byte of it is missing (R43). -/
theorem fetchBytes_eq_none (s : State) (r : Record) :
    fetchBytes s.inp s.ip r = none ↔ Missing s r := by
  cases r with
  | header | trailer => exact memRead_eq_none _ _ _
  | chunk =>
    rw [fetchBytes, Missing]
    cases hb : readByte s.inp s.ip with
    | none => simp
    | some b0 => simp [memRead_eq_none, chunkLength_eq_bytesNeeded]

/-! ## Whatever is read decodes -/

/-- The bytes its control byte asks for are enough for a chunk, in each class (R75, R76, R79). -/
theorem decodeChunkAs_complete {b0 : Byte} {bs : List Byte}
    (h : (b0 :: bs).length = chunkLength b0) :
    ∃ i rest, decodeChunkAs b0 (classify b0) bs = .ok (i, rest) := by
  unfold chunkLength at h
  unfold classify
  by_cases h254 : b0 = 254
  · rw [if_pos h254] at h ⊢
    obtain ⟨r, g, b, rfl⟩ := List.length_eq_three.mp (Nat.succ.inj h)
    exact ⟨_, _, rfl⟩
  by_cases h255 : b0 = 255
  · rw [if_neg h254, if_pos h255] at h ⊢
    match bs, h with
    | [r, g, b, a], _ => exact ⟨_, _, rfl⟩
  rw [if_neg h254, if_neg h255] at h ⊢
  split
  · exact ⟨_, _, rfl⟩
  split
  · exact ⟨_, _, rfl⟩
  split
  · next hluma =>
    rw [if_pos hluma] at h
    obtain ⟨b1, rfl⟩ := List.length_eq_one_iff.mp (Nat.succ.inj h)
    exact ⟨_, _, rfl⟩
  · exact ⟨_, _, rfl⟩

/-- The bytes read for a record decode to an operation (R43, R79). -/
theorem decode_of_fetchBytes {m : Memory} {ip : Nat} {r : Record} {bs : List Byte}
    (h : fetchBytes m ip r = some bs) : ∃ i rest, decode r bs = .ok (i, rest) := by
  cases r with
  | header =>
    obtain ⟨hl, -⟩ := (memRead_eq_some _ _ _ _).mp h
    match bs, hl with
    | [_, _, _, _, _, _, _, _, _, _, _, _, _, _], _ => exact ⟨_, _, rfl⟩
  | trailer =>
    obtain ⟨hl, -⟩ := (memRead_eq_some _ _ _ _).mp h
    match bs, hl with
    | [_, _, _, _, _, _, _, _], _ => exact ⟨_, _, rfl⟩
  | chunk =>
    rw [fetchBytes] at h
    split at h
    · next b0 hb =>
      obtain ⟨hl, hread⟩ := (memRead_eq_some _ _ _ _).mp h
      have hpos : 0 < chunkLength b0 := by unfold chunkLength; split_ifs <;> decide
      have h0 : some b0 = bs[0]? := hb.symm.trans (hread 0 hpos)
      cases bs with
      | nil => cases h0
      | cons b bs =>
        obtain rfl : b0 = b := Option.some.inj h0
        exact decodeChunkAs_complete hl
    · cases h

/-- A fetch is stuck exactly where a byte of the record is missing: whatever is read decodes. -/
theorem fetch_stuck_iff (s : State) :
    fetch s = .stuck ↔ ∃ r, recordOf s.phase = some r ∧ Missing s r := by
  cases hr : recordOf s.phase with
  | none => simp [fetch, hr]
  | some r =>
    have hm := fetchBytes_eq_none s r
    cases hb : fetchBytes s.inp s.ip r with
    | none => simp [fetch, hr, hb, hm.mp hb]
    | some bs =>
      obtain ⟨i, rest, hd⟩ := decode_of_fetchBytes hb
      have hpresent : ¬ Missing s r := fun h => by cases hb.symm.trans (hm.mpr h)
      simp [fetch, hr, hb, hd, hpresent]

/-! ## Stops of a step -/

/-- The meaning of a fetched operation is called in its own phase, so the one stop it has is an illegal
channel count. -/
theorem exec_stop_of_fetch {s : State} {i : Instr} {f : Fault} (hf : fetch s = .op i)
    (h : exec i s = .fault f) :
    f = .illegalChannels ∧ s.phase = .chunk ∧ ¬ (s.channels = 3 ∨ s.channels = 4) := by
  have hr : s.phase = phaseOf i.record := recordOf_eq_some.mp (fetch_op_holdsAt hf).1
  obtain ⟨-, hp⟩ | ⟨rfl, hi, hc⟩ := exec_stops h
  · exact absurd hr hp
  · exact ⟨rfl, by rw [hr, hi]; rfl, hc⟩

/-- Everything a step that stops can have been. -/
theorem step_stops {s : State} {f : Fault} (h : step s = .fault f) :
    (f = .stuckOnInput ∧ fetch s = .stuck) ∨
      (f = .illegalChannels ∧ s.phase = .chunk ∧ ¬ (s.channels = 3 ∨ s.channels = 4)) := by
  obtain hq | hr := quiet_or_restart s
  · have hq := restartAsked_quiet hq
    cases hf : fetch s with
    | idle => rw [step_idle hq hf] at h; cases h
    | stuck => rw [step_stuck hq hf] at h; cases h; exact .inl ⟨rfl, rfl⟩
    | op i => rw [step_op hq hf] at h; exact .inr (exec_stop_of_fetch hf h)
  · rw [step_restart hr] at h; cases h

theorem step_not_refused (s : State) (r : Refusal) : step s ≠ .refused r := by
  intro h
  unfold step at h
  split at h
  · cases h
  · split at h
    · cases h
    · cases h
    · exact exec_not_refused _ _ _ h

/-- Settles O9: the other stop a step can have is an illegal channel count. -/
theorem stuckExactlyOnMissingByte : Obligations.StuckExactlyOnMissingByte := by
  unfold Obligations.StuckExactlyOnMissingByte
  intro s hq
  rw [← fetch_stuck_iff]
  refine ⟨fun h => ?_, step_stuck (restartAsked_quiet hq)⟩
  obtain ⟨-, hf⟩ | ⟨hc, -⟩ := step_stops h
  · exact hf
  · cases hc

/-- At an operation boundary a step has a next state or the fetch is stuck: a boundary in phase `CHUNK` has
a legal channel count (R27). -/
theorem Boundary.step_cases {s : State} (hs : Boundary s) :
    (∃ t, step s = .next t) ∨ (step s = .fault .stuckOnInput ∧ fetch s = .stuck) := by
  cases h : step s with
  | next t => exact .inl ⟨t, rfl⟩
  | fault f =>
    obtain ⟨rfl, hf⟩ | ⟨-, hp, hc⟩ := step_stops h
    · exact .inr ⟨rfl, hf⟩
    · exact absurd (hs.chunk hp).1 hc
  | refused r => exact absurd h (step_not_refused s r)

/-- A chunk step stops by name outside phase `CHUNK` (log entry 7). -/
theorem chunkStep_wrongPhase (n : Nat) (p : Pixel) (run : Nat) {s : State} (h : s.phase ≠ .chunk) :
    chunkStep n p run s = .fault .wrongPhase := if_pos h

/-- A meaning called outside its phase stops by name (log entry 7). -/
theorem exec_wrongPhase {i : Instr} {s : State} (h : s.phase ≠ phaseOf i.record) :
    exec i s = .fault .wrongPhase := by
  cases i with
  | hdr | endOp => exact if_pos h
  | run v =>
    have h63 : ¬ (v = 63 ∧ s.phase = .chunk) := fun hv => h hv.2
    simp only [exec, execRun, if_neg h63]
    exact chunkStep_wrongPhase _ _ _ h
  | _ => exact chunkStep_wrongPhase _ _ _ h

/-- A chunk called at an illegal channel count stops by name (log entry 8). -/
theorem exec_illegalChannels {i : Instr} {s : State} (hi : i.record = .chunk) (h63 : i ≠ .run 63)
    (hp : s.phase = .chunk) (h3 : s.channels ≠ 3) (h4 : s.channels ≠ 4) :
    exec i s = .fault .illegalChannels := by
  have hl : ¬ legalChannels s.channels = true := by
    rw [legalChannels_iff]
    exact not_or.mpr ⟨h3, h4⟩
  rw [exec_chunk i s hi h63, chunkStep, if_neg (not_not_intro hp), if_neg hl]

/-- Settles O10: `step` calls a meaning in its own phase alone, and a boundary has a legal channel count. -/
theorem stepStopsOnlyOnMissingInput : Obligations.StepStopsOnlyOnMissingInput := by
  unfold Obligations.StepStopsOnlyOnMissingInput
  refine ⟨fun s hs => hs.step_cases.imp_right And.left, fun s h => ?_, step_not_refused,
    fun s i => exec_wrongPhase, fun s i => exec_illegalChannels⟩
  obtain ⟨hw, -⟩ | ⟨hw, -⟩ := step_stops h <;> cases hw

/-- Settles O36: `OUT` changes by a restart or one `MemWrite`, and `IN` never. -/
theorem stepKeepsCanonicalMemory : Obligations.StepKeepsCanonicalMemory := by
  unfold Obligations.StepKeepsCanonicalMemory
  intro s t hout hinp h
  obtain hq | hr := quiet_or_restart s
  · have hcase := stepCase_of_step hq h
    rw [hcase.sameHost.1]
    refine ⟨?_, hinp⟩
    obtain ⟨-, -, -, hsame⟩ | ⟨n, p, run, hd⟩ := hcase.samePixels_or_committed
    · rwa [hsame]
    · rw [hd.out]
      exact memWrite_wf _ _ _ hout
  · rw [step_restart hr] at h
    cases h
    exact ⟨reset_out_wf, hinp⟩

end Sys2Proof.Machine
end

/-! # Proofs: where the pixels stand -/

section

namespace Sys2Proof.Machine

open Sys2Proof

/-! ## Reading a filled memory -/

/-- A filled memory is the byte list it holds, written from address 0. -/
theorem FilledTo.eq_streamMemory {m : Memory} {n : Nat} (h : FilledTo m n) :
    m = streamMemory (m.map Prod.snd) := by
  have hzip : m = (List.range n).zip (m.map Prod.snd) := List.zip_of_prod h rfl
  rw [streamMemory, filledTo_nil.memWrite_eq, List.nil_append, cellsFrom, List.length_map, h.length,
    ← List.range_eq_range']
  exact hzip

/-- A filled memory reads as the list of its bytes. -/
theorem FilledTo.readByte_eq {m : Memory} {n : Nat} (h : FilledTo m n) (a : Nat) :
    readByte m a = (m.map Prod.snd)[a]? := by
  have hread : readByte (streamMemory (m.map Prod.snd)) a = (m.map Prod.snd)[a]? := by
    by_cases ha : a < (m.map Prod.snd).length
    · have := readByte_memWrite_same (m.map Prod.snd) [] 0 a ha
      rwa [Nat.zero_add] at this
    · rw [streamMemory, readByte_memWrite_other _ _ _ _ (.inr (by omega)),
        List.getElem?_eq_none (by omega)]
      rfl
  rwa [← h.eq_streamMemory] at hread

/-- A filled memory holds a byte at exactly the addresses below its length. -/
theorem FilledTo.isSome_readByte {m : Memory} {n : Nat} (h : FilledTo m n) (a : Nat) :
    (readByte m a).isSome = true ↔ a < n := by
  rw [h.readByte_eq, isSome_getElem?, List.length_map, h.length]

/-! ## Addresses of components -/

/-- Component `j` of pixel `k` has an address of its own (R42). -/
theorem componentAddr_inj {c k k' j j' : Nat} (hj : j < c) (hj' : j' < c)
    (h : k * c + j = k' * c + j') : k = k' ∧ j = j' := by
  have hc : 0 < c := Nat.zero_lt_of_lt hj
  have hdiv : ∀ {k j}, j < c → (k * c + j) / c = k ∧ (k * c + j) % c = j := fun {k j} hlt =>
    (Nat.div_mod_unique hc).mpr ⟨by rw [Nat.mul_comm, Nat.add_comm], hlt⟩
  obtain ⟨hk, hr⟩ := hdiv (k := k) hj
  obtain ⟨hk', hr'⟩ := hdiv (k := k') hj'
  rw [h] at hk hr
  exact ⟨hk.symm.trans hk', hr.symm.trans hr'⟩

/-- The components of the pixels below `n` are the addresses below `n * c` (R42). -/
theorem componentAddr_lt_iff {c k j n : Nat} (hj : j < c) : k * c + j < n * c ↔ k < n := by
  constructor
  · intro h
    by_contra hk
    have := Nat.mul_le_mul_right c (Nat.le_of_not_lt hk)
    omega
  · intro h
    have := Nat.mul_le_mul_right c (Nat.succ_le_of_lt h)
    rw [Nat.succ_mul] at this
    omega

/-- The index of a pixel of the image is below the pixel count (R42): a row is `width` components of the
column of row starts. -/
theorem pixelIndex_lt {s : State} {x y : Nat} (hx : x < s.width.toNat) (hy : y < s.height.toNat) :
    pixelIndex s x y < pixelCount s := by
  rw [pixelCount, Nat.mul_comm]
  exact (componentAddr_lt_iff hx).mpr hy

/-- Rows follow each other without padding (R42). -/
theorem pixelIndex_nextRow {s : State} {x : Nat} (y : Nat) (hx : x + 1 = s.width.toNat) :
    pixelIndex s 0 (y + 1) = pixelIndex s x y + 1 := by
  simp only [pixelIndex, Nat.succ_mul]
  omega

/-- A pixel whose index is among those a committed chunk counts has its components at its own address. -/
theorem ChunkDone.pixelAt {s t : State} {n : Nat} {p : Pixel} {run k j : Nat}
    (hd : ChunkDone s t n p run) (hj : j < s.channels.toNat) (hlo : s.opx.toNat ≤ k)
    (hhi : k < s.opx.toNat + run) :
    readByte t.out (k * s.channels.toNat + j) = [t.px.r, t.px.g, t.px.b, t.px.a][j]? := by
  obtain ⟨d, rfl⟩ := Nat.exists_eq_add_of_le hlo
  rw [hd.px, ← hd.stored d (by omega) j hj, outAddr, Nat.add_mul]

/-- Settles O47: indices and components are digits of an address, a committed chunk stores what `ChunkDone`
says, and `OUT` is filled to the pixel counter. -/
theorem pixelLayout : Obligations.PixelLayout := by
  unfold Obligations.PixelLayout
  refine ⟨fun s x y x' y' j j' hx hy hx' hy' hj hj' => ⟨?_, fun h => ?_, pixelIndex_nextRow y⟩,
    fun s t i x y j hi h hp hj => ⟨fun hidx => by rw [outAddr, hidx], fun hlo hhi => ?_⟩,
    fun s x y j hs hj => ?_, fun s a hs hp => ?_⟩
  · exact (componentAddr_lt_iff hj).mpr (pixelIndex_lt hx hy)
  · obtain ⟨hidx, hcomp⟩ := componentAddr_inj hj hj' h
    obtain ⟨hrow, hcol⟩ := componentAddr_inj hx hx' hidx
    exact ⟨hcol, hrow, hcomp⟩
  · obtain ⟨-, ⟨-, -, hd⟩ | ⟨-, -, rfl⟩ | ⟨-, rfl⟩⟩ := exec_chunk_cases hi h
    · exact hd.pixelAt hj hlo hhi
    · exact absurd rfl hp
    · exact absurd rfl hp
  · rw [hs.out.isSome_readByte, componentAddr_lt_iff hj]
  · rw [hs.out.isSome_readByte, (hs.done hp).1]
    rfl

end Sys2Proof.Machine
end

/-! # Proofs: the handshakes of the ports -/

section

namespace Sys2Proof.Machine

open Sys2Proof

/-! ## The handshake signals -/

theorem inReady_iff (pace : Pace) (i : PortIn) (p : PortState) : inReady pace i p = true ↔
    portResetAsked i = false ∧ busyFlag p.core = true ∧ p.left = 0 ∧ p.offering = false ∧
      pace.inNow = true := by
  simp [inReady, mayAccept_iff, and_assoc]

theorem outValid_iff (i : PortIn) (p : PortState) :
    outValid i p = true ↔ portResetAsked i = false ∧ p.offering = true := by
  simp [outValid]

theorem portResetAsked_eq_false (i : PortIn) :
    portResetAsked i = false ↔ i.rst = false ∧ i.start = false := by
  simp [portResetAsked]

/-- In a reset cycle nothing is ready, offered or transferred (R210; log entry 20). -/
theorem handshakes_reset (pace : Pace) {i : PortIn} (p : PortState) (h : portResetAsked i = true) :
    inReady pace i p = false ∧ outValid i p = false ∧ tickEvent pace i p = [] := by
  have hin : inReady pace i p = false := by simp [inReady, h]
  have hout : outValid i p = false := by simp [outValid, h]
  exact ⟨hin, hout, by simp [tickEvent, hin, hout]⟩

/-- No byte is accepted while a pixel waits or stands offered, nor in a final phase (R54). -/
theorem inReady_eq_false {pace : Pace} {i : PortIn} {p : PortState}
    (h : 0 < p.left ∨ outValid i p = true ∨ p.core.phase = .done ∨ p.core.phase = .fault) :
    inReady pace i p = false := by
  refine Bool.eq_false_iff.mpr fun hin => ?_
  obtain ⟨-, hbusy, hleft, hoff, -⟩ := (inReady_iff pace i p).mp hin
  rw [busyFlag_iff] at hbusy
  obtain hl | ho | hp | hp := h
  · omega
  · rw [((outValid_iff i p).mp ho).2] at hoff
    cases hoff
  · simp [hp] at hbusy
  · simp [hp] at hbusy

/-! ## A byte transferred -/

@[simp] theorem busyFlag_offerByte (s : State) (b : Byte) : busyFlag (offerByte s b) = busyFlag s := rfl

/-- The byte offered is listed last in `IN` (R54). -/
theorem offerByte_inp {s : State} (h : FilledTo s.inp s.inp.length) (b : Byte) :
    (offerByte s b).inp = s.inp ++ [(s.inp.length, b)] :=
  writeByte_above b fun _ => h.lt

/-- No outcome of a byte changes `IN` again. -/
theorem afterByte_inp (pace : Pace) {c : State} (hq : Quiet c) :
    (afterByte pace c).core.inp = c.inp := by
  obtain ⟨-, h⟩ | ⟨t, ht, ⟨-, h⟩ | ⟨-, h⟩⟩ := afterByte_shape pace c <;> rw [h]
  exact (stepCase_of_step hq ht).sameHost.1

/-! ## Pixels waiting -/

/-- A pixel offered is a waiting one. -/
theorem PortBoundary.left_pos {p : PortState} (hp : PortBoundary p) (h : p.offering = true) :
    0 < p.left := by
  refine Nat.pos_of_ne_zero fun h0 => ?_
  rw [(hp.collecting h0).1] at h
  cases h

/-- While pixels wait, the chunk they belong to has a step, to the state of the next boundary. -/
theorem PortBoundary.step_core {p : PortState} (hp : PortBoundary p) (h : 0 < p.left) :
    step p.core = .next (settle p.core) := by
  obtain ⟨t, ht, -⟩ := hp.emitting h
  rw [step_settle ht, ht]

/-- A pixel transferred is one fewer waiting. -/
theorem afterPixel_left (pace : Pace) {p : PortState} (h : 0 < p.left) :
    (afterPixel pace p).left + 1 = p.left := by
  obtain ⟨hl, h⟩ | ⟨hl, h⟩ := afterPixel_cases pace p <;> rw [h] <;> dsimp only <;> omega

/-- The last pixel transferred completes the chunk (R56). -/
theorem afterPixel_last (pace : Pace) {p : PortState} (h : p.left = 1) :
    afterPixel pace p = ⟨settle p.core, 0, false⟩ := by
  rw [afterPixel, if_pos h.le]

/-! ## The kinds of cycle without a reset line -/

section
variable (pace : Pace) {i : PortIn} {p : PortState} (hreset : portResetAsked i = false)
include hreset

/-- An offered pixel that is not accepted stays (R55). -/
theorem tick_stalled (hoff : p.offering = true) (hr : i.outReady = false) :
    tick pace i p = p ∧ tickEvent pace i p = [] := by
  simpa [hoff, hr] using tick_cases pace p hreset

/-- An offered pixel that is accepted is transferred (R55). -/
theorem tick_pixel (hoff : p.offering = true) (hr : i.outReady = true) :
    tick pace i p = afterPixel pace p ∧ tickEvent pace i p = [.pixelOut (outPx p)] := by
  simpa [hoff, hr] using tick_cases pace p hreset

/-- A waiting pixel is offered by the decoder's pace (R55, R58). -/
theorem tick_offer (hoff : p.offering = false) (hl : 0 < p.left) :
    tick pace i p = { p with offering := pace.outNow } ∧ tickEvent pace i p = [] := by
  simpa [hoff, hl, hl.ne'] using tick_cases pace p hreset

/-- A byte offered to a decoder that is ready is transferred (R54). -/
theorem tick_byte (hin : inReady pace i p = true) (hv : i.inValid = true) :
    tick pace i p = afterByte pace (offerByte p.core i.inData) ∧
      tickEvent pace i p = [.byteIn i.inData] := by
  obtain ⟨-, hbusy, hl, hoff, hnow⟩ := (inReady_iff pace i p).mp hin
  simpa [hoff, hl, hbusy, hnow, hv] using tick_cases pace p hreset

end

/-! ## The output lanes -/

/-- The four lanes of a pixel (R55). -/
theorem lanes_bytes (q : Pixel) :
    (lanes q).extractLsb' 24 8 = q.r ∧ (lanes q).extractLsb' 16 8 = q.g ∧
      (lanes q).extractLsb' 8 8 = q.b ∧ (lanes q).extractLsb' 0 8 = q.a := by
  have h := bytes32_be32 q.r q.g q.b q.a
  simp only [bytes32, List.cons.injEq] at h
  obtain ⟨hr, hg, hb, ha, -⟩ := h
  exact ⟨hr, hg, hb, ha⟩

/-- Settles O55: each clause is one kind of cycle. -/
theorem portHandshakes : Obligations.PortHandshakes := by
  unfold Obligations.PortHandshakes
  refine ⟨fun pace i p => ⟨inReady_eq_false, fun hv hr => ?stalled, fun hr => ?reset⟩,
    fun pace i p hp hrst hstart => ?_, fun p t ht => ?lanes⟩
  case stalled =>
    obtain ⟨hreset, hoff⟩ := (outValid_iff i p).mp hv
    obtain ⟨htick, -⟩ := tick_stalled pace hreset hoff hr
    exact ⟨htick, congrArg outPx htick⟩
  case reset => exact handshakes_reset pace p ((portResetAsked_iff i).mpr hr)
  case lanes =>
    rw [outPx, step_settle ht]
    exact lanes_bytes t.px
  have hreset := (portResetAsked_eq_false i).mpr ⟨hrst, hstart⟩
  refine ⟨fun hl hbusy hnow => ?byte, fun hl hoff hnow => ?offer,
    fun hoff => ⟨(outValid_iff i p).mpr ⟨hreset, hoff⟩, fun hr => ?pixel⟩⟩
  case byte =>
    have hin : inReady pace i p = true :=
      (inReady_iff pace i p).mpr ⟨hreset, hbusy, hl, (hp.collecting hl).1, hnow⟩
    refine ⟨hin, fun hv => ?_⟩
    obtain ⟨htick, hevent⟩ := tick_byte pace hreset hin hv
    have hquiet : Quiet (offerByte p.core i.inData) := hp.quiet
    rw [htick, afterByte_inp pace hquiet, offerByte_inp hp.core.inp]
    exact ⟨hevent, rfl⟩
  case offer =>
    obtain ⟨htick, hevent⟩ := tick_offer pace hreset hoff hl
    rw [htick]
    exact ⟨hnow, rfl, hevent⟩
  case pixel =>
    have hl := hp.left_pos hoff
    obtain ⟨htick, hevent⟩ := tick_pixel pace hreset hoff hr
    rw [htick]
    refine ⟨hevent, afterPixel_left pace hl, fun h1 => ?_⟩
    rw [afterPixel_last pace h1]
    exact hp.step_core hl

end Sys2Proof.Machine
end

/-! # Proofs: the invariant of the byte-serial decoder -/

section

namespace Sys2Proof.Machine

open Sys2Proof

/-! ## Operations at the end of the stream -/

theorem instr_length_pos (i : Instr) : 0 < i.length := by
  cases i <;> exact Nat.succ_pos _

/-- An operation whose bytes stand in a filled memory ends inside it. -/
theorem HoldsAt.end_le {s : State} {i : Instr} {n : Nat} (h : HoldsAt s i) (hs : FilledTo s.inp n) :
    s.ip + i.length ≤ n := by
  have hpos := instr_length_pos i
  have hlast : i.length - 1 < (encode i).length := by rw [encode_length]; omega
  have hread := h _ _ (List.getElem?_eq_getElem hlast)
  have := (hs.isSome_readByte _).mp (Option.isSome_of_eq_some hread)
  omega

/-- At the end of the stream no operation is fetched. -/
theorem fetch_ne_op_at_end {s : State} (hs : FilledTo s.inp s.inp.length) (h : s.ip = s.inp.length)
    (i : Instr) : fetch s ≠ .op i := by
  intro hf
  have hend := (fetch_op_holdsAt hf).2.2.end_le hs
  have hpos := instr_length_pos i
  omega

/-! ## One more byte -/

theorem offerByte_length {s : State} (h : FilledTo s.inp s.inp.length) (b : Byte) :
    (offerByte s b).inp.length = s.inp.length + 1 := by
  rw [offerByte_inp h, List.length_append, List.length_singleton]

/-- The bytes that were there before are read as before. -/
theorem readByte_offerByte (s : State) (b : Byte) {a : Nat} (h : a < s.inp.length) :
    readByte (offerByte s b).inp a = readByte s.inp a :=
  readByte_writeByte_other _ _ h.ne

/-- A boundary is one whatever byte the host offers next. -/
theorem Boundary.offerByte {s : State} (hs : Boundary s) (b : Byte) : Boundary (offerByte s b) :=
  { hs with
    inp := by
      rw [offerByte_length hs.inp]
      exact hs.inp.memWrite [b] }

/-- An operation that one byte completes ends with this byte. -/
theorem holdsAt_offerByte_end {s : State} {i : Instr} {b : Byte} (hs : FilledTo s.inp s.inp.length)
    (hf : ∀ i, fetch s ≠ .op i) (hfi : fetch (offerByte s b) = .op i) :
    s.ip + i.length = s.inp.length + 1 := by
  obtain ⟨hr, hw, hh⟩ := fetch_op_holdsAt hfi
  have hfilled : FilledTo (offerByte s b).inp (s.inp.length + 1) := hs.memWrite [b]
  have hend : s.ip + i.length ≤ s.inp.length + 1 := hh.end_le hfilled
  refine hend.antisymm (Nat.lt_of_not_le fun hle => hf i (fetch_of_holdsAt hw hr fun k b' hk => ?_))
  have hlt : k < (encode i).length := (List.getElem?_eq_some_iff.mp hk).1
  rw [encode_length] at hlt
  rw [← hh k b' hk]
  exact (readByte_offerByte s b (by omega)).symm

/-- A step that one byte makes possible consumes all bytes transferred. -/
theorem step_offerByte_ip {s t : State} {b : Byte} (hs : Boundary s) (hq : Quiet s)
    (hbusy : busyFlag s = true) (hf : ∀ i, fetch s ≠ .op i) (h : step (offerByte s b) = .next t) :
    t.ip = (offerByte s b).inp.length := by
  obtain ⟨hr, -⟩ | ⟨-, hn, -⟩ | ⟨-, i, hfi, he⟩ := step_cases h
  · exact absurd hr (Bool.eq_false_iff.mp (restartAsked_quiet hq))
  · have hfinal : s.phase = .done ∨ s.phase = .fault := recordOf_eq_none.mp hn
    rw [busyFlag_iff] at hbusy
    obtain hp | hp := hfinal <;> simp [hp] at hbusy
  · rw [exec_ip (fetch_op_holdsAt hfi).2.1 he, offerByte_length hs.inp]
    exact holdsAt_offerByte_end hs.inp hf hfi

/-! ## The kinds of cycle -/

/-- A step keeps the reset lines low. -/
theorem quiet_step {s t : State} (hq : Quiet s) (h : step s = .next t) : Quiet t := by
  obtain ⟨-, hrst, hstart⟩ := (stepCase_of_step hq h).sameHost
  exact ⟨hrst.trans hq.1, hstart.trans hq.2⟩

/-- An operation that has consumed all bytes transferred leads to a boundary of the port decoder. -/
theorem portBoundary_completed {c t : State} (hc : Boundary c) (hq : Quiet c) (h : step c = .next t)
    (hip : t.ip = c.inp.length) : PortBoundary ⟨t, 0, false⟩ := by
  have ht : Boundary t := stepKeepsBoundary c t hc h
  have hend : t.ip = t.inp.length := by rw [hip, (stepCase_of_step hq h).sameHost.1]
  exact {
    core := ht
    quiet := quiet_step hq h
    consumed := hend.le
    collecting := fun _ => ⟨rfl, fetch_ne_op_at_end ht.inp hend⟩
    emitting := fun h0 => absurd h0 (lt_irrefl 0) }

/-- Fewer pixels of the same chunk waiting, offered or not. -/
theorem PortBoundary.waiting {p : PortState} (hp : PortBoundary p) {left : Nat} (offering : Bool)
    (h0 : 0 < left) (hle : left ≤ p.left) : PortBoundary ⟨p.core, left, offering⟩ where
  core := hp.core
  quiet := hp.quiet
  consumed := hp.consumed
  collecting h := absurd h h0.ne'
  emitting _ := by
    obtain ⟨t, ht, hl, hip⟩ := hp.emitting (h0.trans_le hle)
    exact ⟨t, ht, hle.trans hl, hip⟩

/-- A pixel accepted: one fewer waits, or the chunk is complete. -/
theorem PortBoundary.afterPixel {p : PortState} (hp : PortBoundary p) (pace : Pace) (h : 0 < p.left) :
    PortBoundary (afterPixel pace p) := by
  obtain ⟨-, ha⟩ | ⟨hl, ha⟩ := afterPixel_cases pace p <;> rw [ha]
  · obtain ⟨t, ht, -, hip⟩ := hp.emitting h
    rw [step_settle ht]
    exact portBoundary_completed hp.core hp.quiet ht hip
  · exact hp.waiting _ (by omega) (Nat.sub_le _ _)

/-- A byte taken: buffered, an operation without pixels done, or a chunk's pixels waiting. -/
theorem PortBoundary.afterByte {p : PortState} (hp : PortBoundary p) (pace : Pace) (b : Byte)
    (hl : p.left = 0) (hbusy : busyFlag p.core = true) :
    PortBoundary (afterByte pace (offerByte p.core b)) := by
  have hc : Boundary (offerByte p.core b) := hp.core.offerByte b
  have hq : Quiet (offerByte p.core b) := hp.quiet
  have hconsumed : (offerByte p.core b).ip ≤ (offerByte p.core b).inp.length := by
    rw [offerByte_length hp.core.inp]
    exact Nat.le_succ_of_le hp.consumed
  have hip : ∀ t, step (offerByte p.core b) = .next t → t.ip = (offerByte p.core b).inp.length :=
    fun t => step_offerByte_ip hp.core hp.quiet hbusy (hp.collecting hl).2
  obtain ⟨hstop, ha⟩ | ⟨t, ht, ⟨-, ha⟩ | ⟨hpos, ha⟩⟩ := afterByte_shape pace (offerByte p.core b) <;>
    rw [ha]
  · obtain ⟨t, ht⟩ | ⟨-, hstuck⟩ := hc.step_cases
    · exact absurd ht (hstop t)
    · exact {
        core := hc, quiet := hq, consumed := hconsumed
        collecting := fun _ => ⟨rfl, fun i hf => by cases hstuck.symm.trans hf⟩
        emitting := fun h0 => absurd h0 (lt_irrefl 0) }
  · exact portBoundary_completed hc hq ht (hip t ht)
  · exact {
      core := hc, quiet := hq, consumed := hconsumed
      collecting := fun h0 => absurd h0 hpos.ne'
      emitting := fun _ => ⟨t, ht, by rw [newPixels, step_settle ht], hip t ht⟩ }

/-- Settles O57: each kind of cycle keeps the invariant. -/
theorem tickKeepsPortInvariant : Obligations.TickKeepsPortInvariant := by
  unfold Obligations.TickKeepsPortInvariant
  intro pace i p hp
  cases hr : portResetAsked i with
  | true => rw [tick_reset pace p hr]; exact portResetBoundary
  | false =>
    obtain ⟨hoff, -, h, -⟩ | ⟨-, -, h, -⟩ | ⟨-, hl, h, -⟩ | ⟨-, hl, hbusy, -, -, h, -⟩ |
      ⟨-, -, -, h, -⟩ := tick_cases pace p hr <;> rw [h]
    · exact hp.afterPixel pace (hp.left_pos hoff)
    · exact hp
    · exact hp.waiting _ hl le_rfl
    · exact hp.afterByte pace _ hl hbusy
    · exact hp

end Sys2Proof.Machine
end

/-! # Proofs: the byte-serial decoder refines the model -/

section

namespace Sys2Proof.Machine

open Sys2Proof

/-! ## Runs of the model -/

/-- A run of one step more is a step and a run. -/
theorem stepN_succ_eq_next {k : Nat} {s t : State} :
    stepN (k + 1) s = .next t ↔ ∃ u, step s = .next u ∧ stepN k u = .next t := by
  rw [stepN]
  cases step s <;> simp

/-- The transfers of a run of one step more are those of its first step, then the others. -/
theorem modelEvents_succ (k : Nat) {s u : State} (h : step s = .next u) :
    modelEvents (k + 1) s = stepEvents s u ++ modelEvents k u := by
  rw [modelEvents, h]

/-- A run of one step more, taken at its end, with its transfers. -/
theorem stepN_succ_last {k : Nat} {s t u : State} (h : stepN k s = .next t) (hu : step t = .next u) :
    stepN (k + 1) s = .next u ∧ modelEvents (k + 1) s = modelEvents k s ++ stepEvents t u := by
  induction k generalizing s with
  | zero =>
    cases h
    exact ⟨stepN_succ_eq_next.mpr ⟨u, hu, rfl⟩,
      (modelEvents_succ 0 hu).trans (List.append_nil _)⟩
  | succ k ih =>
    obtain ⟨v, hv, hrun⟩ := stepN_succ_eq_next.mp h
    obtain ⟨hlast, hevents⟩ := ih hrun
    refine ⟨stepN_succ_eq_next.mpr ⟨v, hv, hlast⟩, ?_⟩
    rw [modelEvents_succ _ hv, modelEvents_succ _ hv, hevents, List.append_assoc]

/-- `MemRead` depends on the bytes at its addresses alone. -/
theorem memRead_congr {m m' : Memory} {a n : Nat}
    (h : ∀ x, a ≤ x → x < a + n → readByte m' x = readByte m x) : memRead m' a n = memRead m a n := by
  induction n generalizing a with
  | zero => rfl
  | succ n ih =>
    rw [memRead, memRead, h a le_rfl (by omega), ih fun x h1 h2 => h x (by omega) (by omega)]

/-- A step without a reset line never moves `ip` back (R16). -/
theorem step_ip_le {s t : State} (hq : Quiet s) (h : step s = .next t) : s.ip ≤ t.ip := by
  obtain ⟨-, ⟨-, hip⟩ | ⟨i, -, -, -, hip⟩⟩ := inputReadInOrder s t hq h <;> omega

/-- A run without a reset line never moves `ip` back. -/
theorem stepN_ip_le {k : Nat} {s t : State} (hq : Quiet s) (h : stepN k s = .next t) :
    s.ip ≤ t.ip := by
  induction k generalizing s with
  | zero => cases h; exact le_rfl
  | succ k ih =>
    obtain ⟨u, hu, hrun⟩ := stepN_succ_eq_next.mp h
    exact (step_ip_le hq hu).trans (ih (quiet_step hq hu) hrun)

/-- A run, and its transfers, are the same with any memory as `IN` that agrees below the `ip` it reaches. -/
theorem stepN_withInp {k : Nat} {s t : State} {m : Memory} (hq : Quiet s) (h : stepN k s = .next t)
    (hm : ∀ a < t.ip, readByte m a = readByte s.inp a) :
    stepN k { s with inp := m } = .next { t with inp := m } ∧
      modelEvents k { s with inp := m } = modelEvents k s := by
  induction k generalizing s with
  | zero => cases h; exact ⟨rfl, rfl⟩
  | succ k ih =>
    obtain ⟨u, hu, hrun⟩ := stepN_succ_eq_next.mp h
    have hqu := quiet_step hq hu
    have hsu := step_ip_le hq hu
    have hut := stepN_ip_le hqu hrun
    have hinp : u.inp = s.inp := (stepCase_of_step hq hu).sameHost.1
    have hstep := otherBytesUnread s u m hq hu fun a _ ha => hm a (by omega)
    have hevents : stepEvents { s with inp := m } { u with inp := m } = stepEvents s u := by
      simp only [stepEvents, byteEvents]
      rw [memRead_congr fun x _ hx => hm x (by omega)]
    obtain ⟨hrun', hevents'⟩ := ih hqu hrun (hinp.symm ▸ hm)
    refine ⟨stepN_succ_eq_next.mpr ⟨_, hstep, hrun'⟩, ?_⟩
    rw [modelEvents_succ k hstep, modelEvents_succ k hu, hevents, hevents']

/-! ## The transfers of completed operations -/

/-- The model, from reset on the bytes in `IN`, reaches `c`, with these transfers. -/
def ModelReaches (c : State) (events : List PortEvent) : Prop :=
  ∃ k, stepN k { State.reset with inp := c.inp } = .next c ∧
    modelEvents k { State.reset with inp := c.inp } = events

theorem modelReaches_reset : ModelReaches State.reset [] := ⟨0, rfl, rfl⟩

/-- A byte more in `IN` leaves the operations completed as they are (R41). -/
theorem ModelReaches.offerByte {c : State} {events : List PortEvent} (h : ModelReaches c events)
    (hle : c.ip ≤ c.inp.length) (b : Byte) : ModelReaches (offerByte c b) events := by
  obtain ⟨k, hrun, hevents⟩ := h
  obtain ⟨hrun', hevents'⟩ := stepN_withInp (m := (Machine.offerByte c b).inp) ⟨rfl, rfl⟩ hrun
    fun a ha => readByte_offerByte c b (ha.trans_le hle)
  exact ⟨k, hrun', hevents'.trans hevents⟩

/-- One operation more. -/
theorem ModelReaches.step {c t : State} {events : List PortEvent} (h : ModelReaches c events)
    (hq : Quiet c) (ht : step c = .next t) : ModelReaches t (events ++ stepEvents c t) := by
  obtain ⟨k, hrun, rfl⟩ := h
  rw [ModelReaches, (stepCase_of_step hq ht).sameHost.1]
  exact ⟨k + 1, stepN_succ_last hrun ht⟩

/-! ## The transfers of the operation in progress -/

/-- The bytes of a filled memory from an address on, as transfers. -/
theorem byteEvents_to_end {m : Memory} {n : Nat} (h : FilledTo m n) (a : Nat) :
    byteEvents m a n = ((m.map Prod.snd).drop a).map .byteIn := by
  have hread : memRead m a (n - a) = some ((m.map Prod.snd).drop a) := by
    refine (memRead_eq_some _ _ _ _).mpr ⟨by simp [h.length], fun k _ => ?_⟩
    rw [h.readByte_eq, List.getElem?_drop]
  rw [byteEvents, hread, Option.getD_some]

/-- At the end of `IN` there is no byte to transfer. -/
theorem byteEvents_self (m : Memory) (a : Nat) : byteEvents m a a = [] := by
  rw [byteEvents, Nat.sub_self]
  rfl

/-- With no pixel sent, the transfers of the operation in progress are its bytes. -/
theorem partialEvents_bytes {p : PortState} (h : sentPixels p = 0) :
    partialEvents p = byteEvents p.core.inp p.core.ip p.core.inp.length := by
  rw [partialEvents, h]
  exact List.append_nil _

/-- Where `IN` is consumed there is no operation in progress. -/
theorem partialEvents_completed {t : State} (h : t.ip = t.inp.length) :
    partialEvents ⟨t, 0, false⟩ = [] := by
  rw [partialEvents_bytes (sentPixels_of_left_eq_zero rfl)]
  dsimp only
  rw [h, byteEvents_self]

/-- A byte taken is the last transfer of the operation in progress. -/
theorem byteEvents_offerByte {c : State} (hc : FilledTo c.inp c.inp.length)
    (hle : c.ip ≤ c.inp.length) (b : Byte) :
    byteEvents (offerByte c b).inp (offerByte c b).ip (offerByte c b).inp.length =
      byteEvents c.inp c.ip c.inp.length ++ [.byteIn b] := by
  have hc' : FilledTo (offerByte c b).inp (c.inp.length + 1) := hc.memWrite [b]
  have hdrop : (offerByte c b).ip ≤ (c.inp.map Prod.snd).length := by rwa [List.length_map]
  rw [offerByte_length hc, byteEvents_to_end hc', byteEvents_to_end hc, offerByte_inp hc,
    List.map_append, List.drop_append_of_le_length hdrop, List.map_append]
  rfl

/-- The transfers of an operation that consumes `IN` to its end: its bytes, then its pixels. -/
theorem stepEvents_to_end {c t : State} (ht : step c = .next t) (hip : t.ip = c.inp.length) :
    stepEvents c t = byteEvents c.inp c.ip c.inp.length ++
      List.replicate (newPixels c) (.pixelOut (lanes (settle c).px)) := by
  rw [stepEvents, newPixels, step_settle ht, hip]

/-- With `n` pixels waiting of those of the chunk, the others have been sent. -/
theorem sentPixels_add_left {p : PortState} (hp : PortBoundary p) (hl : 0 < p.left) :
    sentPixels p + p.left = newPixels p.core := by
  obtain ⟨t, ht, hle, -⟩ := hp.emitting hl
  rw [newPixels, step_settle ht, sentPixels, if_neg hl.ne', newPixels, step_settle ht]
  omega

/-! ## The simulation -/

/-- The transfers so far are those of the model's operations up to the last boundary, then those of the
operation in progress (R56). -/
def PortRefines (p : PortState) (events : List PortEvent) : Prop :=
  ∃ done, ModelReaches p.core done ∧ events = done ++ partialEvents p

/-- An operation whose transfers are all done. -/
theorem portRefines_completed {c t : State} {done : List PortEvent} (h : ModelReaches c done)
    (hq : Quiet c) (ht : step c = .next t) (hip : t.ip = c.inp.length) :
    PortRefines ⟨t, 0, false⟩ (done ++ stepEvents c t) := by
  have hend : t.ip = t.inp.length := by rw [hip, (stepCase_of_step hq ht).sameHost.1]
  exact ⟨_, h.step hq ht, by rw [partialEvents_completed hend, List.append_nil]⟩

/-- A pixel accepted is the next transfer of the chunk in progress. -/
theorem PortRefines.afterPixel {p : PortState} {events : List PortEvent} (h : PortRefines p events)
    (hp : PortBoundary p) (pace : Pace) (hl : 0 < p.left) :
    PortRefines (afterPixel pace p) (events ++ [.pixelOut (outPx p)]) := by
  obtain ⟨done, hdone, rfl⟩ := h
  have hsent := sentPixels_add_left hp hl
  have hsnoc : partialEvents p ++ [.pixelOut (outPx p)] =
      byteEvents p.core.inp p.core.ip p.core.inp.length ++
        List.replicate (sentPixels p + 1) (.pixelOut (outPx p)) := by
    rw [partialEvents, List.append_assoc, List.replicate_succ']
  rw [List.append_assoc, hsnoc]
  obtain ⟨hle, ha⟩ | ⟨hlt, ha⟩ := afterPixel_cases pace p <;> rw [ha]
  · obtain ⟨t, ht, -, hip⟩ := hp.emitting hl
    have hall : sentPixels p + 1 = newPixels p.core := by omega
    rw [hall, outPx, ← stepEvents_to_end ht hip, step_settle ht]
    exact portRefines_completed hdone hp.quiet ht hip
  · have hsent' : sentPixels ⟨p.core, p.left - 1, pace.outNow⟩ = sentPixels p + 1 := by
      have := sentPixels_add_left (hp.waiting pace.outNow (Nat.sub_pos_of_lt hlt) (Nat.sub_le _ _))
        (Nat.sub_pos_of_lt hlt)
      dsimp only at this
      omega
    exact ⟨done, hdone, by rw [partialEvents, hsent']; rfl⟩

/-- A byte taken is the next transfer of the operation in progress. -/
theorem PortRefines.afterByte {p : PortState} {events : List PortEvent} (h : PortRefines p events)
    (hp : PortBoundary p) (pace : Pace) (b : Byte) (hl : p.left = 0)
    (hbusy : busyFlag p.core = true) :
    PortRefines (afterByte pace (offerByte p.core b)) (events ++ [.byteIn b]) := by
  obtain ⟨done, hdone, rfl⟩ := h
  have hdone' := hdone.offerByte hp.consumed b
  have hq : Quiet (offerByte p.core b) := hp.quiet
  have hbytes := byteEvents_offerByte hp.core.inp hp.consumed b
  rw [List.append_assoc, partialEvents_bytes (sentPixels_of_left_eq_zero hl), ← hbytes]
  obtain ⟨-, ha⟩ | ⟨t, ht, ⟨h0, ha⟩ | ⟨hpos, ha⟩⟩ := afterByte_shape pace (offerByte p.core b) <;>
    rw [ha]
  · exact ⟨done, hdone', by rw [partialEvents_bytes (sentPixels_of_left_eq_zero rfl)]⟩
  · have hip := step_offerByte_ip hp.core hp.quiet hbusy (hp.collecting hl).2 ht
    have hevents := stepEvents_to_end ht hip
    rw [h0, List.replicate_zero, List.append_nil] at hevents
    rw [← hevents]
    exact portRefines_completed hdone' hq ht hip
  · have hsent : sentPixels ⟨offerByte p.core b, newPixels (offerByte p.core b), pace.outNow⟩ = 0 := by
      rw [sentPixels, if_neg hpos.ne', Nat.sub_self]
    exact ⟨done, hdone', by rw [partialEvents_bytes hsent]⟩

/-- A cycle without a reset line extends the transfers by its own. -/
theorem PortRefines.tick {p : PortState} {events : List PortEvent} (h : PortRefines p events)
    (hp : PortBoundary p) (pace : Pace) {i : PortIn} (hr : portResetAsked i = false) :
    PortRefines (tick pace i p) (events ++ tickEvent pace i p) := by
  obtain ⟨hoff, -, ht, he⟩ | ⟨-, -, ht, he⟩ | ⟨-, hl, ht, he⟩ | ⟨-, hl, hbusy, -, -, ht, he⟩ |
    ⟨-, -, -, ht, he⟩ := tick_cases pace p hr <;> rw [ht, he]
  · exact h.afterPixel hp pace (hp.left_pos hoff)
  · rwa [List.append_nil]
  · rw [List.append_nil]
    exact h
  · exact h.afterByte hp pace _ hl hbusy
  · rwa [List.append_nil]

/-- A run of cycles without a reset line extends the transfers by its own. -/
theorem PortRefines.ticks {p : PortState} {events : List PortEvent} (h : PortRefines p events)
    (hp : PortBoundary p) {l : List (Pace × PortIn)} (hl : ∀ x ∈ l, portResetAsked x.2 = false) :
    PortRefines (ticks l p) (events ++ tickEvents l p) := by
  induction l generalizing p events with
  | nil => rwa [tickEvents, List.append_nil]
  | cons x l ih =>
    obtain ⟨hx, hl⟩ := List.forall_mem_cons.mp hl
    rw [tickEvents, ← List.append_assoc]
    exact ih (h.tick hp x.1 hx) (tickKeepsPortInvariant x.1 x.2 p hp) hl

/-- Settles O58: the simulation from reset, where nothing has been transferred. -/
theorem portsRefineModel : Obligations.PortsRefineModel := by
  unfold Obligations.PortsRefineModel
  intro l hl
  have hreset : PortRefines portReset [] := ⟨[], modelReaches_reset, rfl⟩
  obtain ⟨_, ⟨k, hrun, rfl⟩, hevents⟩ := hreset.ticks portResetBoundary hl
  exact ⟨k, hrun, hevents⟩

end Sys2Proof.Machine
end

/-! # Proofs: the decoder and the encoder -/

section

namespace Sys2Proof.Machine

open Sys2Proof

/-! ## Round trips -/

/-- Settles O2: `decode_encode`, by cases on the operation. -/
theorem decodeEncodeRoundTrip : Obligations.DecodeEncodeRoundTrip := decode_encode

/-- Settles O3: `encode_of_decode`, with the length of the encoding. -/
theorem encodeDecodeRoundTrip : Obligations.EncodeDecodeRoundTrip := by
  unfold Obligations.EncodeDecodeRoundTrip
  intro r bs rest i h
  obtain ⟨hbytes, hrec, hw⟩ := encode_of_decode h
  exact ⟨hbytes, hrec, hw, encode_length i⟩

/-- Settles O1: the encoder, run on the eight operations, gives these words. -/
theorem decodesSpecWords : Obligations.DecodesSpecWords := by
  unfold Obligations.DecodesSpecWords
  exact ⟨decode_encode (.rgb 128 64 32) [] rfl, decode_encode (.rgba 1 2 3 4) [] rfl,
    decode_encode (.index 21) [] rfl, decode_encode (.diff 2 1 0) [] rfl,
    decode_encode (.luma 32 0 15) [] rfl, decode_encode (.run 61) [] rfl,
    decode_encode (.hdr 0x716F6966 256 2 3 7) [] rfl, decode_encode (.endOp 1) [] rfl⟩

/-! ## Fields as numbers -/

/-- Bits joined are digits: the high ones count `2 ^ n` each. -/
theorem toNat_append_digits {m n : Nat} (x : BitVec m) (y : BitVec n) :
    (x ++ y).toNat = x.toNat * 2 ^ n + y.toNat := by
  rw [BitVec.toNat_append, ← Nat.shiftLeft_add_eq_or_of_lt y.isLt, Nat.shiftLeft_eq]

/-- A control byte as a number: a tag over a payload (R6, R73). -/
theorem toNat_tag_payload (b : Byte) : b.toNat = (opTag b).toNat * 64 + (payload b).toNat := by
  have h := toNat_append_digits (opTag b) (payload b)
  rwa [opTag_append_payload] at h

/-- A byte in the quarter of tag `t` is that tag over its payload (R77). -/
theorem tag_append_payload {b : Byte} (t : BitVec 2) (hlo : t.toNat * 64 ≤ b.toNat)
    (hhi : b.toNat < (t.toNat + 1) * 64) :
    t ++ payload b = b ∧ b.toNat = t.toNat * 64 + (payload b).toNat := by
  have hb := toNat_tag_payload b
  have hp := (payload b).isLt
  obtain rfl : opTag b = t := BitVec.eq_of_toNat_eq (by omega)
  exact ⟨opTag_append_payload b, hb⟩

/-! ## The opcode map -/

/-- Settles O4: in each range the control byte is the one the encoder writes for the operation, and an
encoding decodes to its operation. -/
theorem chunkOpcodeMap : Obligations.ChunkOpcodeMap := by
  unfold Obligations.ChunkOpcodeMap
  intro b0 b1 b2 b3 b4 rest
  refine ⟨fun hhi => ?index, fun hlo hhi => ?diff, fun hlo hhi => ?luma, fun hlo hhi => ?run,
    fun h => ?rgb, fun h => ?rgba⟩
  case index =>
    obtain ⟨hb, hn⟩ := tag_append_payload 0#2 (Nat.zero_le _) (Nat.lt_succ_of_le hhi)
    have hd := decode_encode (.index (payload b0)) (b1 :: b2 :: b3 :: b4 :: rest) rfl
    rw [encode, hb] at hd
    exact ⟨payload b0, by simpa using hn.symm, hd⟩
  case diff =>
    obtain ⟨hb, hn⟩ := tag_append_payload 1#2 hlo (Nat.lt_succ_of_le hhi)
    have hd := decode_encode (.diff (b0.extractLsb' 4 2) (b0.extractLsb' 2 2) (b0.extractLsb' 0 2))
      (b1 :: b2 :: b3 :: b4 :: rest) rfl
    rw [encode, diffByte_eq, payload_fields, hb] at hd
    refine ⟨_, _, _, ?_, hd⟩
    rw [← payload_fields, toNat_append_digits, toNat_append_digits] at hn
    have htag : (1#2).toNat = 1 := rfl
    omega
  case luma =>
    obtain ⟨hb, hn⟩ := tag_append_payload 2#2 hlo (Nat.lt_succ_of_le hhi)
    have hd := decode_encode (.luma (payload b0) (b1.extractLsb' 4 4) (b1.extractLsb' 0 4))
      (b2 :: b3 :: b4 :: rest) rfl
    have hn1 := toNat_append_digits (b1.extractLsb' 4 4) (b1.extractLsb' 0 4)
    rw [nibbles_append] at hn1
    rw [encode, hb, nibbles_append] at hd
    exact ⟨_, _, _, hn, hn1, hd⟩
  case run =>
    obtain ⟨hb, hn⟩ := tag_append_payload 3#2 hlo (by change b0.toNat < 256; omega)
    have hn : b0.toNat = 0xC0 + (payload b0).toNat := hn
    have hw : (Instr.run (payload b0)).wellFormed = true := by
      simp only [Instr.wellFormed, runPayloadOk, decide_eq_true_eq, Config.longestRun]
      omega
    have hd := decode_encode (.run (payload b0)) (b1 :: b2 :: b3 :: b4 :: rest) hw
    rw [encode, hb] at hd
    refine ⟨payload b0, hn, chunkRun_pos _, ?_, rfl, hd⟩
    rw [chunkRun]
    omega
  case rgb =>
    obtain rfl : b0 = 254 := BitVec.eq_of_toNat_eq h
    exact decode_encode (.rgb b1 b2 b3) (b4 :: rest) rfl
  case rgba =>
    obtain rfl : b0 = 255 := BitVec.eq_of_toNat_eq h
    exact decode_encode (.rgba b1 b2 b3 b4) rest rfl

/-! ## The length of a record -/

/-- How many bytes the next record has, by its kind and for a chunk by its first byte (R76). -/
def recordLength : Record → List Byte → Nat
  | .header, _ => 14
  | .trailer, _ => 8
  | .chunk, b0 :: _ => bytesNeeded b0
  | .chunk, [] => 1

/-- Whatever decodes has the length its kind and its first byte give. -/
theorem length_of_decode {r : Record} {bs rest : List Byte} {i : Instr}
    (h : decode r bs = .ok (i, rest)) : i.length = recordLength r bs := by
  obtain ⟨rfl, rfl, hw⟩ := encode_of_decode h
  cases hi : i.record with
  | header =>
    cases i with
    | hdr => rfl
    | _ => cases hi
  | trailer =>
    cases i with
    | endOp => rfl
    | _ => cases hi
  | chunk =>
    obtain ⟨b0, h0, hl⟩ := chunkLength_encode hi hw
    obtain ⟨bs, hbs⟩ := List.head?_eq_some_iff.mp (List.head?_eq_getElem?.trans h0)
    rw [hbs, List.cons_append, recordLength, ← chunkLength_eq_bytesNeeded, hl]

/-- Decoding consumes the operation's length. -/
theorem rest_of_decode {r : Record} {bs rest : List Byte} {i : Instr}
    (h : decode r bs = .ok (i, rest)) : rest = bs.drop i.length := by
  obtain ⟨rfl, -⟩ := encode_of_decode h
  rw [← encode_length i, List.drop_left]

/-- The only refusal names the record (log entry 18). -/
theorem decode_error {r : Record} {bs : List Byte} {e : DecodeError} (h : decode r bs = .error e) :
    e = .truncated r := by
  cases r with
  | header =>
    change decodeHeader bs = _ at h
    unfold decodeHeader at h
    split at h <;> cases h
    rfl
  | trailer =>
    change decodeTrailer bs = _ at h
    unfold decodeTrailer at h
    split at h <;> cases h
    rfl
  | chunk =>
    cases bs with
    | nil => cases h; rfl
    | cons b0 bs =>
      change decodeChunkAs b0 (classify b0) bs = _ at h
      unfold decodeChunkAs at h
      split at h <;> cases h
      rfl

/-- `MemRead` of a stream from its start answers its first bytes. -/
theorem memRead_streamMemory {bs : List Byte} {n : Nat} (h : n ≤ bs.length) :
    memRead (streamMemory bs) 0 n = some (bs.take n) := by
  refine (memRead_eq_some _ _ _ _).mpr ⟨List.length_take_of_le h, fun k hk => ?_⟩
  rw [streamMemory, readByte_memWrite_same bs [] 0 k (by omega), List.getElem?_take_of_lt hk]

/-- The bytes its length asks for are what is read for a record at the start of a stream. -/
theorem fetchBytes_streamMemory {r : Record} {bs : List Byte} (h : recordLength r bs ≤ bs.length) :
    fetchBytes (streamMemory bs) 0 r = some (bs.take (recordLength r bs)) := by
  cases r with
  | header | trailer => exact memRead_streamMemory h
  | chunk =>
    cases bs with
    | nil => cases h
    | cons b0 bs =>
      have h0 : readByte (streamMemory (b0 :: bs)) 0 = some b0 :=
        readByte_memWrite_same (b0 :: bs) [] 0 0 (Nat.zero_lt_succ _)
      rw [fetchBytes, h0, recordLength, ← chunkLength_eq_bytesNeeded]
      exact memRead_streamMemory ((chunkLength_eq_bytesNeeded b0).trans_le h)

/-- Bytes after those that decode do not matter: they are left over. -/
theorem decode_append {r : Record} {bs rest : List Byte} {i : Instr} (more : List Byte)
    (h : decode r bs = .ok (i, rest)) : decode r (bs ++ more) = .ok (i, rest ++ more) := by
  obtain ⟨rfl, rfl, hw⟩ := encode_of_decode h
  rw [List.append_assoc, decode_encode i _ hw]

/-- A record with all its bytes is decoded and exactly they are consumed, whatever they are (R76, R79). -/
theorem decode_of_length_le (r : Record) (bs : List Byte) (h : recordLength r bs ≤ bs.length) :
    ∃ i, i.length = recordLength r bs ∧ decode r bs = .ok (i, bs.drop (recordLength r bs)) := by
  obtain ⟨i, rest, hd⟩ := decode_of_fetchBytes (fetchBytes_streamMemory h)
  have hall := decode_append (bs.drop (recordLength r bs)) hd
  rw [List.take_append_drop] at hall
  have hlen := length_of_decode hall
  rw [rest_of_decode hall, hlen] at hall
  exact ⟨i, hlen, hall⟩

/-- A record with too few bytes is refused by name (R43; log entry 18). -/
theorem decode_of_length_lt (r : Record) (bs : List Byte) (h : bs.length < recordLength r bs) :
    decode r bs = .error (.truncated r) := by
  cases hd : decode r bs with
  | error e => rw [decode_error hd]
  | ok x =>
    obtain ⟨i, rest⟩ := x
    obtain ⟨hbytes, -⟩ := encode_of_decode hd
    have hlen := congrArg List.length hbytes
    rw [List.length_append, encode_length, length_of_decode hd] at hlen
    omega

/-- Settles O5: each clause is one kind of record. -/
theorem lengthFromFirstByte : Obligations.LengthFromFirstByte := by
  unfold Obligations.LengthFromFirstByte
  exact ⟨fun b0 bs => ⟨decode_of_length_le .chunk (b0 :: bs), decode_of_length_lt .chunk (b0 :: bs)⟩,
    fun bs => ⟨decode_of_length_le .header bs, decode_of_length_lt .header bs,
      decode_of_length_le .trailer bs, decode_of_length_lt .trailer bs⟩⟩

end Sys2Proof.Machine
end

/-! # Proofs: the assembler -/

section

namespace Sys2Proof.Machine

open Sys2Proof

/-! ## Assembling what was disassembled -/

theorem assemble_eq_some {l : AsmLine} {bs : List Byte} :
    assemble l = some bs ↔ asmLimits l = true ∧ asmBytes l = bs := by
  simp [assemble]

/-- A number within 8 bits is the byte with that value. -/
theorem byteOfNat_eq {n : Nat} {b : Byte} (h : n = b.toNat) : byteOfNat n = b := by
  rw [h, byteOfNat, BitVec.ofNat_toNat, BitVec.setWidth_eq]

@[simp] theorem byteOfNat_toNat (b : Byte) : byteOfNat b.toNat = b := byteOfNat_eq rfl

/-- A `.byte` line of bytes gives them back. -/
theorem assemble_bytes (bs : List Byte) : assemble (.bytes (bs.map BitVec.toNat)) = some bs :=
  assemble_eq_some.mpr ⟨by simpa [asmLimits] using fun b _ => b.isLt,
    by simp [asmBytes, Function.comp_def]⟩

/-- The line of a header with the right magic (R72). -/
theorem assemble_hdr (w h : Word32) (c cs : Byte) :
    assemble (.hdr w.toNat h.toNat c.toNat cs.toNat) = some (encode (.hdr Config.magic w h c cs)) := by
  have hmagic : bytes32 Config.magic = [0x71, 0x6F, 0x69, 0x66] := rfl
  refine assemble_eq_some.mpr ⟨?_, ?_⟩
  · simp only [asmLimits, Bool.and_eq_true, decide_eq_true_eq]
    exact ⟨⟨⟨w.isLt, h.isLt⟩, c.isLt⟩, cs.isLt⟩
  · simp [asmBytes, encode, hmagic]

/-- The line of an `RGB`. -/
theorem assemble_rgb (r g b : Byte) :
    assemble (.rgb r.toNat g.toNat b.toNat) = some (encode (.rgb r g b)) := by
  refine assemble_eq_some.mpr ⟨?_, ?_⟩
  · simp only [asmLimits, Bool.and_eq_true, decide_eq_true_eq]
    exact ⟨⟨r.isLt, g.isLt⟩, b.isLt⟩
  · simp [asmBytes, encode]

/-- The line of an `RGBA`. -/
theorem assemble_rgba (r g b a : Byte) :
    assemble (.rgba r.toNat g.toNat b.toNat a.toNat) = some (encode (.rgba r g b a)) := by
  refine assemble_eq_some.mpr ⟨?_, ?_⟩
  · simp only [asmLimits, Bool.and_eq_true, decide_eq_true_eq]
    exact ⟨⟨⟨r.isLt, g.isLt⟩, b.isLt⟩, a.isLt⟩
  · simp [asmBytes, encode]

/-- The line of a `DIFF`: its fields are the digits of the control byte (R77, R78). -/
theorem assemble_diff (fr fg fb : BitVec 2) :
    assemble (.diff (diffDelta fr) (diffDelta fg) (diffDelta fb)) = some (encode (.diff fr fg fb)) := by
  have hr := fr.isLt
  have hg := fg.isLt
  have hb := fb.isLt
  refine assemble_eq_some.mpr ⟨?_, congrArg (fun b => [b]) (byteOfNat_eq ?_)⟩
  · simp only [asmLimits, Bool.and_eq_true, decide_eq_true_eq]
    simp only [diffDelta]
    omega
  · have htag : (1#2).toNat = 1 := rfl
    simp only [diffDelta, toNat_append_digits, htag]
    omega

/-- The line of a `LUMA`: one field in the control byte, two in the next (R77, R78). -/
theorem assemble_luma (fg : BitVec 6) (frg fbg : BitVec 4) :
    assemble (.luma (lumaGreen fg) (lumaOther frg 0) (lumaOther fbg 0)) =
      some (encode (.luma fg frg fbg)) := by
  have hg := fg.isLt
  have hr := frg.isLt
  have hb := fbg.isLt
  refine assemble_eq_some.mpr
    ⟨?_, congrArg₂ (fun b b' => [b, b']) (byteOfNat_eq ?_) (byteOfNat_eq ?_)⟩
  · simp only [asmLimits, Bool.and_eq_true, decide_eq_true_eq]
    simp only [lumaGreen, lumaOther]
    omega
  · have htag : (2#2).toNat = 2 := rfl
    simp only [lumaGreen, toNat_append_digits, htag]
    omega
  · simp only [lumaOther, toNat_append_digits]
    omega

/-- The line of a `RUN` the stream can hold (R77, R78). -/
theorem assemble_run {v : BitVec 6} (hv : runPayloadOk v = true) :
    assemble (.run (runLength v)) = some (encode (.run v)) := by
  have hv : v.toNat < 62 := of_decide_eq_true hv
  refine assemble_eq_some.mpr ⟨?_, congrArg (fun b => [b]) (byteOfNat_eq ?_)⟩
  · simp only [asmLimits, Bool.and_eq_true, decide_eq_true_eq]
    simp only [runLength]
    omega
  · have htag : (3#2).toNat = 3 := rfl
    simp only [runLength, toNat_append_digits, htag]
    omega

/-- The line of an `INDEX` (R77). -/
theorem assemble_index (v : BitVec 6) : assemble (.index v.toNat) = some (encode (.index v)) := by
  refine assemble_eq_some.mpr ⟨decide_eq_true v.isLt, congrArg (fun b => [b]) (byteOfNat_eq ?_)⟩
  have htag : (0#2).toNat = 0 := rfl
  rw [toNat_append_digits, htag, Nat.zero_mul, Nat.zero_add]

/-- Settles O6: one law per kind of line; a header or trailer that has none is a `.byte` line. -/
theorem assemblerRoundTrip : Obligations.AssemblerRoundTrip := by
  unfold Obligations.AssemblerRoundTrip
  intro i hw
  cases i with
  | hdr m w h c cs =>
    rw [disassemble]
    split
    · next hm => rw [hm]; exact assemble_hdr w h c cs
    · exact assemble_bytes _
  | rgb r g b => exact assemble_rgb r g b
  | rgba r g b a => exact assemble_rgba r g b a
  | index v => exact assemble_index v
  | diff fr fg fb => exact assemble_diff fr fg fb
  | luma fg frg fbg => exact assemble_luma fg frg fbg
  | run v => exact assemble_run hw
  | endOp t =>
    rw [disassemble]
    split
    · next ht => rw [ht]; rfl
    · exact assemble_bytes _

/-! ## One line for the bytes of each operation -/

/-- The kind of record of an operation can be told from its length (R71). -/
theorem record_of_length (i : Instr) : i.record =
    if i.length = 14 then .header else if i.length = 8 then .trailer else .chunk := by
  cases i <;> rfl

/-- No two operations the stream can hold have the same bytes. -/
theorem encode_injective {i j : Instr} (hi : i.wellFormed = true) (hj : j.wellFormed = true)
    (h : encode i = encode j) : i = j := by
  have hlen : i.length = j.length := by rw [← encode_length i, ← encode_length j, h]
  have hrec : i.record = j.record := by rw [record_of_length i, record_of_length j, hlen]
  have hdi := decode_encode i [] hi
  have hdj := decode_encode j [] hj
  rw [hrec, h, hdj] at hdi
  cases hdi
  rfl

/-- A number within `w` bits is a field's value. -/
theorem exists_toNat_eq {w n : Nat} (h : n < 2 ^ w) : ∃ f : BitVec w, f.toNat = n :=
  ⟨BitVec.ofNatLT n h, rfl⟩

/-- An integer that fits a field with its bias added is a field's value without its bias (R78). -/
theorem exists_unbiased_eq {w : Nat} {bias d : Int} (h0 : 0 ≤ d + bias) (h1 : d + bias < 2 ^ w) :
    ∃ f : BitVec w, (f.toNat : Int) - bias = d := by
  obtain ⟨n, hn⟩ := Int.eq_ofNat_of_zero_le h0
  obtain ⟨f, hf⟩ := exists_toNat_eq (w := w) (n := n) (by exact_mod_cast hn ▸ h1)
  exact ⟨f, by omega⟩

/-- Every line within its limits, `.byte` lines apart, is the line of an operation the stream can hold. -/
theorem exists_disassemble_eq {l : AsmLine} (hl : ∀ xs, l ≠ .bytes xs) (h : asmLimits l = true) :
    ∃ i : Instr, i.wellFormed = true ∧ disassemble i = l := by
  cases l with
  | hdr w h' c s =>
    simp only [asmLimits, Bool.and_eq_true, decide_eq_true_eq] at h
    obtain ⟨⟨⟨hw, hh⟩, hc⟩, hs⟩ := h
    obtain ⟨w, rfl⟩ := exists_toNat_eq hw
    obtain ⟨h', rfl⟩ := exists_toNat_eq hh
    obtain ⟨c, rfl⟩ := exists_toNat_eq (w := 8) hc
    obtain ⟨s, rfl⟩ := exists_toNat_eq (w := 8) hs
    exact ⟨.hdr Config.magic w h' c s, rfl, rfl⟩
  | index i =>
    obtain ⟨v, rfl⟩ := exists_toNat_eq (w := 6) (of_decide_eq_true h)
    exact ⟨.index v, rfl, rfl⟩
  | diff dr dg db =>
    simp only [asmLimits, Bool.and_eq_true, decide_eq_true_eq] at h
    obtain ⟨fr, rfl⟩ := exists_unbiased_eq (w := 2) (bias := 2) (d := dr) (by omega) (by omega)
    obtain ⟨fg, rfl⟩ := exists_unbiased_eq (w := 2) (bias := 2) (d := dg) (by omega) (by omega)
    obtain ⟨fb, rfl⟩ := exists_unbiased_eq (w := 2) (bias := 2) (d := db) (by omega) (by omega)
    exact ⟨.diff fr fg fb, rfl, rfl⟩
  | luma dg drg dbg =>
    simp only [asmLimits, Bool.and_eq_true, decide_eq_true_eq] at h
    obtain ⟨fg, rfl⟩ := exists_unbiased_eq (w := 6) (bias := 32) (d := dg) (by omega) (by omega)
    obtain ⟨frg, rfl⟩ := exists_unbiased_eq (w := 4) (bias := 8) (d := drg) (by omega) (by omega)
    obtain ⟨fbg, rfl⟩ := exists_unbiased_eq (w := 4) (bias := 8) (d := dbg) (by omega) (by omega)
    exact ⟨.luma fg frg fbg, rfl, by simp [disassemble, lumaGreen, lumaOther]⟩
  | run n =>
    simp only [asmLimits, Bool.and_eq_true, decide_eq_true_eq] at h
    obtain ⟨v, hv⟩ := exists_toNat_eq (w := 6) (n := n - 1) (by omega)
    have hrun : runLength v = n := by rw [runLength]; omega
    have hv : v.toNat < 62 := by omega
    exact ⟨.run v, decide_eq_true hv, congrArg AsmLine.run hrun⟩
  | rgb r g b =>
    simp only [asmLimits, Bool.and_eq_true, decide_eq_true_eq] at h
    obtain ⟨⟨hr, hg⟩, hb⟩ := h
    obtain ⟨r, rfl⟩ := exists_toNat_eq (w := 8) hr
    obtain ⟨g, rfl⟩ := exists_toNat_eq (w := 8) hg
    obtain ⟨b, rfl⟩ := exists_toNat_eq (w := 8) hb
    exact ⟨.rgb r g b, rfl, rfl⟩
  | rgba r g b a =>
    simp only [asmLimits, Bool.and_eq_true, decide_eq_true_eq] at h
    obtain ⟨⟨⟨hr, hg⟩, hb⟩, ha⟩ := h
    obtain ⟨r, rfl⟩ := exists_toNat_eq (w := 8) hr
    obtain ⟨g, rfl⟩ := exists_toNat_eq (w := 8) hg
    obtain ⟨b, rfl⟩ := exists_toNat_eq (w := 8) hb
    obtain ⟨a, rfl⟩ := exists_toNat_eq (w := 8) ha
    exact ⟨.rgba r g b a, rfl, rfl⟩
  | endLine => exact ⟨.endOp Config.trailer, rfl, rfl⟩
  | bytes xs => exact absurd rfl (hl xs)

/-- A line that assembles, `.byte` lines apart, is the line of an operation with those bytes. -/
theorem assemble_operation {l : AsmLine} {bs : List Byte} (hl : ∀ xs, l ≠ .bytes xs)
    (h : assemble l = some bs) :
    ∃ i : Instr, i.wellFormed = true ∧ disassemble i = l ∧ encode i = bs := by
  obtain ⟨i, hw, rfl⟩ := exists_disassemble_eq hl (assemble_eq_some.mp h).1
  exact ⟨i, hw, rfl, Option.some.inj ((assemblerRoundTrip i hw).symm.trans h)⟩

/-- Settles O7: the two lines are those of one operation, since no two operations have the same bytes. -/
theorem assemblerOneToOne : Obligations.AssemblerOneToOne := by
  unfold Obligations.AssemblerOneToOne
  intro l m bs hl hm hlb hmb
  obtain ⟨i, hi, rfl, hib⟩ := assemble_operation hl hlb
  obtain ⟨j, hj, rfl, hjb⟩ := assemble_operation hm hmb
  rw [encode_injective hi hj (hib.trans hjb.symm)]

end Sys2Proof.Machine
end

/-! # Proofs: a well-formed stream decodes to the image of the source's loop -/

section

namespace Sys2Proof.Machine

open Sys2Proof

/-! ## The deltas in 8-bit arithmetic -/

/-- Adding an integer to a component is 8-bit addition (R153). -/
theorem addWrap_eq_add (c : Byte) (d : Int) : addWrap c d = c + BitVec.ofInt 8 d := by
  rw [addWrap, BitVec.ofInt_add, BitVec.ofInt_natCast, BitVec.ofNat_toNat, BitVec.setWidth_eq]

/-- A field with its bias removed, as an 8-bit number. -/
theorem ofInt_unbiased {w : Nat} (f : BitVec w) (bias : Int) :
    BitVec.ofInt 8 ((f.toNat : Int) - bias) = f.setWidth 8 + BitVec.ofInt 8 (-bias) := by
  rw [Int.sub_eq_add_neg, BitVec.ofInt_add, BitVec.ofInt_natCast, BitVec.ofNat_toNat]

theorem addWrap_diffDelta (c : Byte) (f : BitVec 2) :
    addWrap c (diffDelta f) = c + f.setWidth 8 + 254 := by
  rw [addWrap_eq_add, diffDelta, ofInt_unbiased, BitVec.add_assoc]
  rfl

theorem addWrap_lumaGreen (c : Byte) (fg : BitVec 6) :
    addWrap c (lumaGreen fg) = c + fg.setWidth 8 + 224 := by
  rw [addWrap_eq_add, lumaGreen, ofInt_unbiased, BitVec.add_assoc]
  rfl

theorem addWrap_lumaOther (c : Byte) (f : BitVec 4) (fg : BitVec 6) :
    addWrap c (lumaOther f (lumaGreen fg)) = c + fg.setWidth 8 + f.setWidth 8 + 216 := by
  rw [addWrap_eq_add, lumaOther, lumaGreen, BitVec.ofInt_add, ofInt_unbiased, ofInt_unbiased]
  have hbias : (216 : Byte) = BitVec.ofInt 8 (-8) + BitVec.ofInt 8 (-32) := rfl
  rw [hbias]
  ac_rfl

/-! ## The cache as a function -/

/-- The cache of a state, as the function the source's loop works on. -/
def CacheIs (s : State) (cache : Nat → Pixel) : Prop := ∀ i : Fin 64, s.cache[i] = cache i.val

/-- The cache function after a chunk that yields pixel `q` (R112). -/
def cacheAfter (q : Pixel) (cache : Nat → Pixel) : Nat → Pixel :=
  fun k => if k = (pixelHash q).val then q else cache k

/-- One round of the source's loop. -/
theorem refPixels_cons (i : Instr) (l : List Instr) (px : Pixel) (cache : Nat → Pixel) :
    refPixels (i :: l) px cache = List.replicate (chunkRun i) (refPixel i px cache) ++
      refPixels l (refPixel i px cache) (cacheAfter (refPixel i px cache) cache) := rfl

/-- The pixel a chunk yields is the loop's. -/
theorem chunkPixel_eq_refPixel (i : Instr) {s : State} {cache : Nat → Pixel} (h : CacheIs s cache) :
    chunkPixel i s = refPixel i s.px cache := by
  cases i with
  | index v => exact h (slotOf v)
  | diff fr fg fb => simp only [chunkPixel, refPixel, addDeltas, addWrap_diffDelta]
  | luma fg frg fbg =>
    simp only [chunkPixel, refPixel, addDeltas, addWrap_lumaGreen, addWrap_lumaOther]
  | _ => rfl

/-- A completed chunk leaves the cache as the loop does. -/
theorem ChunkDone.cacheIs {s t : State} {n : Nat} {p : Pixel} {run : Nat} {cache : Nat → Pixel}
    (hd : ChunkDone s t n p run) (h : CacheIs s cache) : CacheIs t (cacheAfter p cache) := by
  intro i
  rw [hd.cache i, h i, cacheAfter]
  simp only [Fin.ext_iff]

/-! ## Streams in `IN` -/

/-- The bytes stand in a memory from address `a` on. -/
def HoldsFrom (m : Memory) (a : Nat) (bs : List Byte) : Prop :=
  ∀ k (b : Byte), bs[k]? = some b → readByte m (a + k) = some b

theorem HoldsFrom.append {m : Memory} {a : Nat} {bs cs : List Byte} (h : HoldsFrom m a (bs ++ cs)) :
    HoldsFrom m a bs ∧ HoldsFrom m (a + bs.length) cs := by
  refine ⟨fun k b hk => h k b ?_, fun k b hk => ?_⟩
  · rw [List.getElem?_append_left (List.getElem?_eq_some_iff.mp hk).1, hk]
  · rw [Nat.add_assoc]
    exact h _ b (by rw [List.getElem?_append_right (Nat.le_add_right _ _), Nat.add_sub_cancel_left, hk])

/-- At the head of a stream stands its first operation, and after its length the others. -/
theorem HoldsFrom.cons {s : State} {i : Instr} {l : List Instr}
    (h : HoldsFrom s.inp s.ip (streamBytes (i :: l))) :
    HoldsAt s i ∧ HoldsFrom s.inp (s.ip + i.length) (streamBytes l) := by
  rw [← encode_length i]
  exact HoldsFrom.append h

/-- A stream in `IN` stands there from address 0. -/
theorem HoldsStream.holdsFrom {s : State} {bs : List Byte} (h : HoldsStream s bs) :
    HoldsFrom s.inp 0 bs := by
  intro k b hk
  rw [Nat.zero_add]
  exact h k b hk

/-! ## The run of a well-formed stream -/

/-- A state between two operations of a well-formed stream: what is left in `IN` are these chunks and the
trailer, and the chunks have as many pixels as the image still needs. -/
structure BeforeChunks (chunks : List Instr) (cache : Nat → Pixel) (s : State) : Prop where
  boundary : Boundary s
  quiet : Quiet s
  channels : s.channels = 3 ∨ s.channels = 4
  phase : s.phase = nextPhase s
  cache : CacheIs s cache
  pixels : s.opx.toNat + (chunks.map chunkRun).sum = s.width.toNat * s.height.toNat
  stream : HoldsFrom s.inp s.ip (streamBytes (chunks ++ [.endOp 1]))

/-- A chunk the stream can hold that fits is committed: the converse of `exec_chunk_committed`. -/
theorem exec_chunk_commits {i : Instr} {s : State} (hi : i.record = .chunk) (hw : i.wellFormed = true)
    (hr : ChunkReady s) (hf : Fits s (chunkRun i)) :
    ∃ t, exec i s = .next t ∧ ChunkCommitted s t i.length (chunkPixel i s) (chunkRun i) := by
  have h63 : i ≠ .run 63 := by rintro rfl; cases hw
  obtain ⟨t, he, hd⟩ := exec_chunk_fits i s hi h63 hr hf
  have hstep := exec_chunk i s hi h63 ▸ he
  exact ⟨t, he, hr, hf, chunkRun_pos i, hd, chunkStep_out hr (chunkRun_pos i) hf hstep⟩

/-- While a chunk is left, the image needs pixels and the phase is `CHUNK` (R115). -/
theorem BeforeChunks.phase_chunk {i : Instr} {l : List Instr} {cache : Nat → Pixel} {s : State}
    (h : BeforeChunks (i :: l) cache s) : s.phase = .chunk ∧ Fits s (chunkRun i) := by
  have hsum := h.pixels
  rw [List.map_cons, List.sum_cons] at hsum
  have hpos := chunkRun_pos i
  refine ⟨?_, by rw [Fits]; omega⟩
  obtain ⟨-, hP⟩ | ⟨hn, -⟩ := nextPhase_cases s
  · omega
  · exact h.phase.trans hn

/-- The next chunk is committed with the pixel the loop gives, and the rest of the stream is left. -/
theorem BeforeChunks.step_chunk {i : Instr} {l : List Instr} {cache : Nat → Pixel} {s : State}
    (h : BeforeChunks (i :: l) cache s) (hi : i.record = .chunk) (hw : i.wellFormed = true) :
    ∃ t, step s = .next t ∧
      ChunkCommitted s t i.length (refPixel i s.px cache) (chunkRun i) ∧
      BeforeChunks l (cacheAfter (refPixel i s.px cache) cache) t := by
  obtain ⟨hp, hfits⟩ := h.phase_chunk
  obtain ⟨hat, hrest⟩ := HoldsFrom.cons h.stream
  have hstep : step s = exec i s := stepRunsDecodedInstruction s i h.quiet hw (by rw [hp, hi]; rfl) hat
  obtain ⟨t, he, hd⟩ := exec_chunk_commits hi hw ⟨hp, h.channels⟩ hfits
  rw [chunkPixel_eq_refPixel i h.cache] at hd
  obtain ⟨hwidth, hheight, hch, -⟩ := hd.done.header
  obtain ⟨hinp, -⟩ := hd.done.host
  have ht : step s = .next t := hstep.trans he
  exact ⟨t, ht, hd, {
    boundary := h.boundary.chunkCommitted hd
    quiet := quiet_step h.quiet ht
    channels := by rw [hch]; exact h.channels
    phase := hd.done.phase_eq_nextPhase
    cache := hd.done.cacheIs h.cache
    pixels := by
      rw [hd.done.opx, hwidth, hheight, ← h.pixels, List.map_cons, List.sum_cons, Nat.add_assoc]
    stream := by rw [hinp, hd.done.ip]; exact hrest }⟩

/-- When no chunk is left, the trailer ends the run (R170). -/
theorem BeforeChunks.step_trailer {cache : Nat → Pixel} {s : State} (h : BeforeChunks [] cache s) :
    step s = .next (setPhase .done (advanceIp 8 s)) := by
  have hp : s.phase = .trailer := h.phase.trans (if_pos h.pixels)
  obtain ⟨hat, -⟩ := HoldsFrom.cons (l := []) h.stream
  rw [stepRunsDecodedInstruction s (.endOp 1) h.quiet rfl (by rw [hp]; rfl) hat]
  simp [exec, execEnd, hp]

/-- The bytes of `OUT` after a committed chunk. -/
theorem ChunkCommitted.bytes {s t : State} {n : Nat} {p : Pixel} {run : Nat}
    (hd : ChunkCommitted s t n p run) (hs : Boundary s) :
    t.out.map Prod.snd = s.out.map Prod.snd ++ runBytes s.channels p run := by
  rw [hd.out_eq hs, List.map_append, cellsFrom_bytes]

/-- From any state of a well-formed stream on, one step per operation reaches `DONE`, and the bytes of the
pixels the loop gives have been appended to `OUT`. -/
theorem BeforeChunks.run {chunks : List Instr} {cache : Nat → Pixel} {s : State}
    (h : BeforeChunks chunks cache s)
    (hchunks : ∀ i ∈ chunks, i.record = .chunk ∧ i.wellFormed = true) :
    ∃ t, stepN (chunks.length + 1) s = .next t ∧ t.phase = .done ∧
      t.ip = s.ip + (chunks.map Instr.length).sum + 8 ∧
      t.out.map Prod.snd =
        s.out.map Prod.snd ++ (refPixels chunks s.px cache).flatMap (pixelBytes s.channels) := by
  induction chunks generalizing s cache with
  | nil =>
    refine ⟨_, stepN_succ_eq_next.mpr ⟨_, h.step_trailer, rfl⟩, rfl, rfl, ?_⟩
    exact (List.append_nil _).symm
  | cons i l ih =>
    obtain ⟨⟨hi, hw⟩, hl⟩ := List.forall_mem_cons.mp hchunks
    obtain ⟨u, hu, hd, hrest⟩ := h.step_chunk hi hw
    obtain ⟨t, hrun, hdone, hip, hout⟩ := ih hrest hl
    refine ⟨t, stepN_succ_eq_next.mpr ⟨u, hu, hrun⟩, hdone, ?_, ?_⟩
    · rw [hip, hd.done.ip, List.map_cons, List.sum_cons, Nat.add_assoc s.ip]
    · obtain ⟨-, -, hch, -⟩ := hd.done.header
      rw [hout, hd.bytes h.boundary, hd.done.px, hch, refPixels_cons, List.flatMap_append,
        List.flatMap_replicate, List.append_assoc]
      rfl

/-- A header with the right magic and a legal channel count is taken (R100, R103). -/
theorem exec_hdr_taken {s : State} (w h : Word32) {c : Byte} (cs : Byte) (hp : s.phase = .hdr)
    (hc : c = 3 ∨ c = 4) : exec (.hdr Config.magic w h c cs) s =
      .next (setPhase (nextPhase (advanceIp 14 (latchHeader w h c cs s)))
        (advanceIp 14 (latchHeader w h c cs s))) := by
  simp [exec, execHdr, hp, (legalChannels_iff c).mpr hc]

/-- From reset, the header of a well-formed stream leads to the state before its chunks. -/
theorem header_beforeChunks {m : Memory} {n : Nat} (hm : FilledTo m n) (w h : Word32) {c : Byte}
    (cs : Byte) (hc : c = 3 ∨ c = 4) {chunks : List Instr}
    (hsum : (chunks.map chunkRun).sum = w.toNat * h.toNat)
    (hs : HoldsStream { State.reset with inp := m }
      (streamBytes (.hdr Config.magic w h c cs :: chunks ++ [.endOp 1]))) :
    ∃ u, step { State.reset with inp := m } = .next u ∧
      BeforeChunks chunks (fun _ => Config.zeroPixel) u ∧
      u.ip = 14 ∧ u.px = Config.resetPixel ∧ u.channels = c ∧ u.out = [] := by
  obtain ⟨hat, hrest⟩ := HoldsFrom.cons (s := { State.reset with inp := m }) hs.holdsFrom
  have hq : Quiet { State.reset with inp := m } := ⟨rfl, rfl⟩
  have hstep := (stepRunsDecodedInstruction _ _ hq rfl rfl hat).trans (exec_hdr_taken w h cs rfl hc)
  have hb : Boundary { State.reset with inp := m } :=
    boundary_restart { State.reset with inp := m } (hm.length ▸ hm)
  refine ⟨_, hstep, ?_, rfl, rfl, rfl, rfl⟩
  exact {
    boundary := hb.header rfl w h cs hc rfl
    quiet := hq
    channels := hc
    phase := rfl
    cache := fun i => Vector.getElem_replicate i.isLt
    pixels := (Nat.zero_add _).trans hsum
    stream := hrest }

/-- Settles O50: the header leads to the state before the chunks, and the run from there follows the
source's loop, by induction on the chunks. -/
theorem wellFormedStreamDecodes : Obligations.WellFormedStreamDecodes := by
  unfold Obligations.WellFormedStreamDecodes
  rintro _ w h c cs chunks ⟨m, hm, rfl⟩ hc hchunks hsum hs
  obtain ⟨u, hu, hbefore, hip0, hpx, hch, hout0⟩ := header_beforeChunks hm w h cs hc hsum hs
  obtain ⟨t, hrun, hdone, hip, hout⟩ := hbefore.run hchunks
  refine ⟨t, stepN_succ_eq_next.mpr ⟨u, hu, hrun⟩, hdone, by rw [hip, hip0], ?_⟩
  rw [image, if_pos hdone, hout, hout0, hpx, hch]
  exact congrArg (fun f => some (List.flatMap f _)) (funext fun p => pixelBytes_eq p hc)

end Sys2Proof.Machine
end

/-! # Proofs: the header record -/

section

namespace Sys2Proof.Machine

open Sys2Proof

/-! ## The faults of a header -/

/-- A header with another magic raises `BAD_MAGIC` before the channel count is looked at (R101). -/
theorem exec_hdr_badMagic {s : State} {m : Word32} (w h : Word32) (c cs : Byte) (hp : s.phase = .hdr)
    (hm : m ≠ Config.magic) : exec (.hdr m w h c cs) s =
      .next (raiseFault .badMagic s.ip 14 (advanceIp 14 (latchHeader w h c cs s))) := by
  simp [exec, execHdr, hp, hm]

/-- A header with the right magic and another channel count raises `BAD_CHANNELS` (R102). -/
theorem exec_hdr_badChannels {s : State} (w h : Word32) {c : Byte} (cs : Byte) (hp : s.phase = .hdr)
    (hc : ¬ (c = 3 ∨ c = 4)) : exec (.hdr Config.magic w h c cs) s =
      .next (raiseFault .badChannels s.ip 14 (advanceIp 14 (latchHeader w h c cs s))) := by
  simp [exec, execHdr, hp, (legalChannels_iff c).not.mpr hc]

/-- `next_phase()` takes no fault (R115). -/
theorem nextPhase_ne_fault (s : State) : nextPhase s ≠ .fault := by
  obtain ⟨hn, -⟩ | ⟨hn, -⟩ := nextPhase_cases s <;> simp [hn]

/-! ## The obligations on `HDR` -/

/-- Settles O14: the header taken, its updates written out. -/
theorem hdrCompletes : Obligations.HdrCompletes := by
  unfold Obligations.HdrCompletes
  intro s w h c cs hp hc
  exact exec_hdr_taken w h cs hp hc

/-- Settles O15: the fault of the magic check, its updates written out. -/
theorem hdrBadMagic : Obligations.HdrBadMagic := by
  unfold Obligations.HdrBadMagic
  intro s m w h c cs hp hm
  exact exec_hdr_badMagic w h c cs hp hm

/-- Settles O16: the fault of the channel check, or the header taken. -/
theorem hdrChannelCheck : Obligations.HdrChannelCheck := by
  unfold Obligations.HdrChannelCheck
  intro s w h c cs hp
  refine ⟨fun h3 h4 => exec_hdr_badChannels w h cs hp (not_or.mpr ⟨h3, h4⟩), fun hc => ?_⟩
  exact ⟨_, exec_hdr_taken w h cs hp hc, nextPhase_ne_fault _, rfl⟩

/-- Settles O26: in each of the three cases of a header, what it does not write is as before. -/
theorem hdrFrame : Obligations.HdrFrame := by
  unfold Obligations.HdrFrame
  intro s t m w h c cs he
  obtain ⟨-, ⟨-, rfl⟩ | ⟨-, -, rfl⟩ | ⟨-, -, rfl⟩⟩ := exec_hdr_cases he
  · exact ⟨rfl, rfl, rfl, fun _ => rfl, ⟨rfl, rfl, rfl⟩, fun hf => absurd rfl hf⟩
  · exact ⟨rfl, rfl, rfl, fun _ => rfl, ⟨rfl, rfl, rfl⟩, fun _ => ⟨rfl, rfl⟩⟩
  · exact ⟨rfl, rfl, rfl, fun _ => rfl, ⟨rfl, rfl, rfl⟩, fun hf => absurd rfl hf⟩

/-! ## `colorspace` -/

/-- The checks of a header do not read `colorspace`: with another value it does the same (R104). -/
theorem exec_hdr_withColorspace {s t : State} {m w h : Word32} {c cs : Byte} (cs' : Byte)
    (he : exec (.hdr m w h c cs) s = .next t) :
    exec (.hdr m w h c cs') s = .next { t with colorspace := cs' } := by
  obtain ⟨hp, ⟨hm, rfl⟩ | ⟨rfl, hc, rfl⟩ | ⟨rfl, hc, rfl⟩⟩ := exec_hdr_cases he
  · exact exec_hdr_badMagic w h c cs' hp hm
  · exact exec_hdr_taken w h cs' hp hc
  · exact exec_hdr_badChannels w h cs' hp hc

theorem exec_hdr_colorspace {s t : State} {m w h : Word32} {c cs : Byte}
    (he : exec (.hdr m w h c cs) s = .next t) : t.colorspace = cs := by
  obtain ⟨-, ⟨-, rfl⟩ | ⟨-, -, rfl⟩ | ⟨-, -, rfl⟩⟩ := exec_hdr_cases he <;> rfl

/-- After the header a step reads neither `colorspace` nor, but for their product, the other two registers
(R42, R104). -/
theorem step_withUnread {s : State} {w h : Word32} (cs : Byte) (hq : Quiet s) (hp : s.phase ≠ .hdr)
    (hP : w.toNat * h.toNat = pixelCount s) :
    step (withUnread s.inp w h cs s) = mapNext (withUnread s.inp w h cs) (step s) := by
  have hqs : restartAsked s = false := restartAsked_quiet hq
  have hqu : restartAsked (withUnread s.inp w h cs s) = false := hqs
  have hfetch : fetch (withUnread s.inp w h cs s) = fetch s := rfl
  cases hf : fetch s with
  | idle => rw [step_idle hqs hf, step_idle hqu (hfetch.trans hf), mapNext_next]
  | stuck => rw [step_stuck hqs hf, step_stuck hqu (hfetch.trans hf), mapNext_fault]
  | op i =>
    obtain ⟨hr, -⟩ := fetch_op_holdsAt hf
    have hi : i.record ≠ .header := by rwa [recordOf_eq_some.mp hr, ne_eq, phaseOf_eq_hdr] at hp
    rw [step_op hqs hf, step_op hqu (hfetch.trans hf)]
    exact exec_withUnread s.inp cs hi hP

/-- After the header a step with another `colorspace` has the same result but for that register. -/
theorem step_withColorspace {s : State} (cs : Byte) (hq : Quiet s) (hp : s.phase ≠ .hdr) :
    step { s with colorspace := cs } = mapNext (fun t => { t with colorspace := cs }) (step s) := by
  refine (step_withUnread cs hq hp rfl).trans ?_
  cases hs : step s with
  | next t =>
    have hcase := stepCase_of_step hq hs
    obtain ⟨hwidth, hheight, -, -⟩ := hcase.sameHeader hp
    rw [mapNext_next, mapNext_next, withUnread, ← hwidth, ← hheight, ← hcase.sameHost.1]
  | fault f => rfl
  | refused r => rfl

/-- Settles O51: `HDR` only latches it, and no step after the header reads it. -/
theorem colorspaceIgnored : Obligations.ColorspaceIgnored := by
  unfold Obligations.ColorspaceIgnored
  refine ⟨fun s t m w h c cs cs' he => ?_, fun s cs hq hp => ?_⟩
  · exact ⟨exec_hdr_colorspace he, exec_hdr_colorspace he, exec_hdr_withColorspace cs' he⟩
  · have hstep := step_withColorspace cs hq hp
    exact ⟨fun t ht => by rw [hstep, ht, mapNext_next], fun f hf => by rw [hstep, hf, mapNext_fault]⟩

end Sys2Proof.Machine
end

/-! # Proofs: dispatch and commit -/

section

namespace Sys2Proof.Machine

open Sys2Proof

/-! ## The two ends of a chunk -/

/-- A chunk that has a next state has done all that R110 and R112 say and fits, or has entered a fault at
its own position and done nothing else (R188). -/
theorem exec_chunk_done_or_fault {i : Instr} {s t : State} (hi : i.record = .chunk)
    (h : exec i s = .next t) :
    (Fits s (chunkRun i) ∧ ChunkDone s t i.length (chunkPixel i s) (chunkRun i)) ∨
      ∃ code, t = raiseFault code s.ip i.length s := by
  obtain ⟨-, ⟨-, hf, hd⟩ | ⟨-, -, ht⟩ | ⟨-, ht⟩⟩ := exec_chunk_cases hi h
  · exact .inl ⟨hf, hd⟩
  · exact .inr ⟨.runOverflow, ht⟩
  · exact .inr ⟨.badRunPayload, ht⟩

/-- A committed chunk takes no fault. -/
theorem ChunkDone.phase_ne_fault {s t : State} {n : Nat} {p : Pixel} {run : Nat}
    (hd : ChunkDone s t n p run) : t.phase ≠ .fault :=
  hd.phase_eq_nextPhase ▸ nextPhase_ne_fault t

/-! ## The obligations on dispatch and commit -/

/-- Settles O28: a committed chunk has `ChunkDone`'s frame, and fault entry leaves all but its own
registers. -/
theorem chunkFrame : Obligations.ChunkFrame := by
  unfold Obligations.ChunkFrame
  intro s t i hi h
  obtain ⟨-, hd⟩ | ⟨code, rfl⟩ := exec_chunk_done_or_fault hi h
  · have hcache : ∀ k : Fin 64, k ≠ pixelHash t.px → t.cache[k] = s.cache[k] := fun k hk => by
      rw [hd.px] at hk
      rw [hd.cache, if_neg hk]
    exact ⟨hd.header, hd.host, hd.ip, hcache, hd.kept, fun _ => hd.fault,
      fun hp => absurd hp hd.phase_ne_fault⟩
  · exact ⟨⟨rfl, rfl, rfl, rfl⟩, ⟨rfl, rfl, rfl⟩, rfl, fun _ _ => rfl, fun _ _ => rfl,
      fun hp => absurd rfl hp, fun _ => ⟨rfl, rfl, rfl, rfl⟩⟩

/-- Settles O30: a header that is taken and a committed chunk both leave the phase `next_phase()` gives on
the state they leave. -/
theorem nextPhaseByPixelCount : Obligations.NextPhaseByPixelCount := by
  unfold Obligations.NextPhaseByPixelCount
  intro s t i hi h hp
  change t.phase = nextPhase t
  cases hr : i.record with
  | header =>
    cases i with
    | hdr m w h' c cs =>
      obtain ⟨-, ⟨-, rfl⟩ | ⟨-, -, rfl⟩ | ⟨-, -, rfl⟩⟩ := exec_hdr_cases h
      · exact absurd rfl hp
      · rfl
      · exact absurd rfl hp
    | _ => cases hr
  | chunk =>
    obtain ⟨-, hd⟩ | ⟨code, rfl⟩ := exec_chunk_done_or_fault hr h
    · exact hd.phase_eq_nextPhase
    · exact absurd rfl hp
  | trailer => exact absurd hr hi

/-- Settles O48: in phase `CHUNK` the step is a chunk, which counts its own pixels if they fit and faults
if they do not. -/
theorem chunkMakesProgress : Obligations.ChunkMakesProgress := by
  unfold Obligations.ChunkMakesProgress
  intro s t _ hq hp h
  obtain ⟨hn, -⟩ | ⟨i, hr, -, -, he⟩ := step_quiet_cases hq h
  · rw [hp] at hn
    cases hn
  · rw [hp] at hr
    have hi : i.record = .chunk := (Option.some.inj hr).symm
    obtain ⟨hfits, hd⟩ | ⟨code, rfl⟩ := exec_chunk_done_or_fault hi he
    · rw [hd.opx]
      exact .inr ⟨Nat.lt_add_of_pos_right (chunkRun_pos i), hfits⟩
    · exact .inl rfl

/-- The reset pixel's slot is 53 (R114). -/
theorem pixelHash_resetPixel : pixelHash Config.resetPixel = 53 := by decide

/-- Settles O45: the run leaves its pixel in the pixel's own slot. -/
theorem firstRunWritesSlot53 : Obligations.FirstRunWritesSlot53 := by
  unfold Obligations.FirstRunWritesSlot53
  intro s v hready hv hfits hpx
  have h63 : Instr.run v ≠ .run 63 := by
    rintro ⟨⟩
    exact absurd hv (by decide)
  obtain ⟨t, he, hd⟩ := exec_chunk_fits (.run v) s rfl h63 hready hfits
  refine ⟨t, he, ?_⟩
  have hp : chunkPixel (.run v) s = Config.resetPixel := hpx
  rw [hd.cache, hp, if_pos pixelHash_resetPixel.symm]

end Sys2Proof.Machine
end

/-! # Proofs: the literal chunks -/

section

namespace Sys2Proof.Machine

open Sys2Proof

/-- Settles O17: `RGB` is a chunk of four bytes and one pixel, whose `execute` keeps alpha. -/
theorem rgbResult : Obligations.RgbResult := by
  unfold Obligations.RgbResult
  intro s r g b hready hfits
  exact exec_chunk_fits (.rgb r g b) s rfl nofun hready hfits

/-- Settles O18: `RGBA` is a chunk of five bytes and one pixel, whose `execute` does not read the channel
count. -/
theorem rgbaResult : Obligations.RgbaResult := by
  unfold Obligations.RgbaResult
  intro s r g b a hready hfits
  exact exec_chunk_fits (.rgba r g b a) s rfl nofun hready hfits

end Sys2Proof.Machine
end

/-! # Proofs: the pixel-cache lookup -/

section

namespace Sys2Proof.Machine

open Sys2Proof

theorem slotOf_eq {v : BitVec 6} {k : Fin 64} (h : k.val = v.toNat) : slotOf v = k := Fin.ext h.symm

/-- The empty pixel's slot is 0 (R141, case 2). -/
theorem pixelHash_zeroPixel : pixelHash Config.zeroPixel = 0 := by decide

/-- Settles O19: `INDEX` is a chunk of one byte and one pixel, whose `execute` is the slot its payload
names, read before the commit (R113). -/
theorem indexResult : Obligations.IndexResult := by
  unfold Obligations.IndexResult
  intro s v k hready hfits hk
  rw [← slotOf_eq hk]
  exact exec_chunk_fits (.index v) s rfl nofun hready hfits

/-- A chunk whose pixel stands in its own slot already writes the cache back as it was (R141, case 1). -/
theorem ChunkDone.cache_eq {s t : State} {n : Nat} {p : Pixel} {run : Nat}
    (hd : ChunkDone s t n p run) (h : s.cache[pixelHash p] = p) : t.cache = s.cache := by
  have hslot : ∀ j : Fin 64, t.cache[j] = s.cache[j] := fun j => by
    rw [hd.cache]
    split
    · next hj => rw [hj, h]
    · rfl
  exact Vector.ext fun j hj => hslot ⟨j, hj⟩

/-- Settles O44: the commit writes the slot of the pixel read, which is the same slot when the pixel has
the slot's own hash, and slot 0 when it is the empty pixel. -/
theorem indexCacheCases : Obligations.IndexCacheCases := by
  unfold Obligations.IndexCacheCases
  intro s v k hready hfits hk
  obtain ⟨t, he, hd⟩ := indexResult s v k hready hfits hk
  refine ⟨fun hown => ⟨t, he, hd.px, hd.cache_eq (by simp only [hown])⟩, fun hempty => ?_⟩
  have hpixel : s.cache[k] = Config.zeroPixel := hempty
  rw [hpixel] at hd
  have hcache : ∀ j : Fin 64, t.cache[j] = if j = 0 then Config.zeroPixel else s.cache[j] := fun j => by
    rw [hd.cache, pixelHash_zeroPixel]
  exact ⟨t, he, hd.px, (hcache 0).trans (if_pos rfl), fun j hj => (hcache j).trans (if_neg hj)⟩

end Sys2Proof.Machine
end

/-! # Proofs: the delta chunks -/

section

namespace Sys2Proof.Machine

open Sys2Proof

/-! ## `DIFF` and `LUMA` on integers -/

/-- A component with a delta added is the exact sum modulo 256, in both directions (R153). -/
theorem toNat_addWrap (c : Byte) (d : Int) :
    ((addWrap c d).toNat : Int) = ((c.toNat : Int) + d) % 256 := by
  rw [addWrap, BitVec.toNat_ofInt]
  exact Int.toNat_of_nonneg (Int.emod_nonneg _ (by decide))

/-- Settles O20: `DIFF` is a chunk of one byte and one pixel, whose `execute` adds the three unbiased
fields. -/
theorem diffResult : Obligations.DiffResult := by
  unfold Obligations.DiffResult
  intro s fr fg fb hready hfits
  obtain ⟨t, he, hd⟩ := exec_chunk_fits (.diff fr fg fb) s rfl nofun hready hfits
  exact ⟨t, _, he, hd, toNat_addWrap _ _, toNat_addWrap _ _, toNat_addWrap _ _, rfl⟩

/-- Settles O21: `LUMA` is a chunk of two bytes and one pixel, whose `execute` adds the unbiased fields,
red and blue on top of the integer green delta. -/
theorem lumaResult : Obligations.LumaResult := by
  unfold Obligations.LumaResult
  intro s fg frg fbg hready hfits
  obtain ⟨t, he, hd⟩ := exec_chunk_fits (.luma fg frg fbg) s rfl nofun hready hfits
  exact ⟨t, _, he, hd, toNat_addWrap _ _, toNat_addWrap _ _, toNat_addWrap _ _, rfl⟩

/-! ## `DIFF` and `LUMA` in 8-bit arithmetic -/

/-- A chunk that has a next state without a fault leaves its own pixel in `px`. -/
theorem exec_chunk_px {i : Instr} {s t : State} (hi : i.record = .chunk) (h : exec i s = .next t)
    (hp : t.phase ≠ .fault) : t.px = chunkPixel i s := by
  obtain ⟨-, hd⟩ | ⟨code, rfl⟩ := exec_chunk_done_or_fault hi h
  · exact hd.px
  · exact absurd rfl hp

/-- Settles O43: modulo 256 the biases are the constants of the 8-bit forms. -/
theorem deltaEightBitForms : Obligations.DeltaEightBitForms := by
  unfold Obligations.DeltaEightBitForms
  refine ⟨fun s t fr fg fb h hp => ?_, fun s t fg frg fbg h hp => ?_⟩
  · rw [exec_chunk_px rfl h hp]
    simp only [chunkPixel, addDeltas, addWrap_diffDelta]
  · rw [exec_chunk_px rfl h hp]
    simp only [chunkPixel, addDeltas, addWrap_lumaGreen, addWrap_lumaOther]

/-! ## Alpha -/

/-- Only `RGBA` and `INDEX` yield a pixel with an alpha of their own (R152). -/
theorem chunkPixel_alpha {i : Instr} (s : State) (hrgba : ∀ r g b a, i ≠ .rgba r g b a)
    (hindex : ∀ v, i ≠ .index v) : (chunkPixel i s).a = s.px.a := by
  cases i with
  | rgba r g b a => exact absurd rfl (hrgba r g b a)
  | index v => exact absurd rfl (hindex v)
  | _ => rfl

/-- `HDR` and `END` do not touch `px`. -/
theorem exec_px_of_not_chunk {i : Instr} {s t : State} (hi : i.record ≠ .chunk)
    (h : exec i s = .next t) : t.px = s.px := by
  cases i with
  | hdr m w h' c cs => obtain ⟨-, ⟨-, rfl⟩ | ⟨-, -, rfl⟩ | ⟨-, -, rfl⟩⟩ := exec_hdr_cases h <;> rfl
  | endOp b => obtain ⟨-, ⟨-, rfl⟩ | ⟨-, rfl⟩⟩ := exec_end_cases h <;> rfl
  | _ => exact absurd rfl hi

/-- The state with another alpha in `px`. -/
def withAlpha (a : Byte) (s : State) : State := setPx { s.px with a := a } s

/-- A chunk whose pixel takes over the alpha of `px` and reads it for nothing else has a next state at
every alpha if it has one at all, with the same colours: neither the commit nor fault entry asks for `px`. -/
theorem exec_chunk_withAlpha {i : Instr} {s t : State} (a : Byte) (hi : i.record = .chunk)
    (h63 : i ≠ .run 63) (hpx : chunkPixel i (withAlpha a s) = { chunkPixel i s with a := a })
    (h : exec i s = .next t) :
    ∃ t', exec i (withAlpha a s) = .next t' ∧ t'.px = { t.px with a := a } := by
  obtain ⟨-, ⟨hready, hfits, hd⟩ | ⟨hready, hfits, rfl⟩ | ⟨hrun, -⟩⟩ := exec_chunk_cases hi h
  · obtain ⟨t', he', hd'⟩ := exec_chunk_fits i (withAlpha a s) hi h63 hready hfits
    exact ⟨t', he', by rw [hd'.px, hpx, hd.px]⟩
  · rw [exec_chunk i _ hi h63]
    exact ⟨_, chunkStep_overflow _ _ _ (withAlpha a s) hready (chunkRun_pos i) hfits, rfl⟩
  · exact absurd hrun h63

/-- Settles O41: a chunk leaves its own pixel or, on a fault, the old one, and the pixels of `DIFF` and
`LUMA` pass alpha through. -/
theorem alphaOnlyByRgbaAndIndex : Obligations.AlphaOnlyByRgbaAndIndex := by
  unfold Obligations.AlphaOnlyByRgbaAndIndex
  constructor
  · intro s t i h hrgba hindex
    by_cases hi : i.record = .chunk
    · obtain ⟨-, hd⟩ | ⟨code, rfl⟩ := exec_chunk_done_or_fault hi h
      · rw [hd.px, chunkPixel_alpha s hrgba hindex]
      · rfl
    · rw [exec_px_of_not_chunk hi h]
  · rintro s t a i (⟨fr, fg, fb, rfl⟩ | ⟨fg, frg, fbg, rfl⟩) h
    · exact exec_chunk_withAlpha a rfl nofun rfl h
    · exact exec_chunk_withAlpha a rfl nofun rfl h

end Sys2Proof.Machine
end

/-! # Proofs: the run chunk -/

section

namespace Sys2Proof.Machine

open Sys2Proof

/-- A payload `RUN` may have is not the dead one (R161). -/
theorem run_ne_run63 {v : BitVec 6} (hv : v.toNat ≤ 61) : Instr.run v ≠ .run 63 := by
  rintro ⟨⟩
  exact absurd hv (by decide)

/-- Settles O22: `RUN` is a chunk of one byte and payload + 1 pixels, whose `execute` keeps `px`. -/
theorem runResult : Obligations.RunResult := by
  unfold Obligations.RunResult
  intro s v hready hv hfits
  exact exec_chunk_fits (.run v) s rfl (run_ne_run63 hv) hready hfits

/-- Settles O23: the capacity test of the commit is the only check a payload up to 61 meets, and it enters
the fault before anything is written. -/
theorem runOverflowFaults : Obligations.RunOverflowFaults := by
  unfold Obligations.RunOverflowFaults
  intro s v hready hv hleft
  have hfits : ¬ Fits s (chunkRun (.run v)) := (pixelsLeft_lt_iff s _ (chunkRun_pos _)).mp hleft
  rw [exec_chunk (.run v) s rfl (run_ne_run63 hv)]
  exact chunkStep_overflow _ _ _ s hready (chunkRun_pos _) hfits

/-- Settles O24: the check stands before the commit, and whatever decodes is an operation the stream can
hold, which a `RUN` with payload 62 or 63 is not. -/
theorem runPayloadCheckIsDead : Obligations.RunPayloadCheckIsDead := by
  unfold Obligations.RunPayloadCheckIsDead
  refine ⟨exec_run63, fun r bs rest v h => ?_⟩
  obtain ⟨-, -, hw⟩ := encode_of_decode h
  have hlt : v.toNat < Config.longestRun := of_decide_eq_true hw
  exact Nat.le_of_lt_succ hlt

end Sys2Proof.Machine
end

/-! # Proofs: the trailer -/

section

namespace Sys2Proof.Machine

open Sys2Proof

/-! ## The two outcomes of the check -/

/-- The trailer ends the run (R170). -/
theorem exec_end_trailer {s : State} (hp : s.phase = .trailer) :
    exec (.endOp Config.trailer) s = .next (setPhase .done (advanceIp 8 s)) := by
  simp [exec, execEnd, hp]

/-- Any other eight bytes raise `BAD_TRAILER` once all are consumed (R171, R183). -/
theorem exec_end_badTrailer {s : State} {bytes : BitVec 64} (hp : s.phase = .trailer)
    (hb : bytes ≠ Config.trailer) :
    exec (.endOp bytes) s = .next (raiseFault .badTrailer s.ip 8 (advanceIp 8 s)) := by
  simp [exec, execEnd, hp, hb]

/-! ## The obligations on `END` and the phase it leads to -/

/-- Settles O25: the two outcomes, their updates written out. -/
theorem endResult : Obligations.EndResult := by
  unfold Obligations.EndResult
  intro s hp
  exact ⟨exec_end_trailer hp, fun _ hb => exec_end_badTrailer hp hb⟩

/-- Settles O27: in each of the two cases of a trailer check, what it does not write is as before. -/
theorem endFrame : Obligations.EndFrame := by
  unfold Obligations.EndFrame
  intro s t bytes he
  obtain ⟨-, ⟨-, rfl⟩ | ⟨-, rfl⟩⟩ := exec_end_cases he
  · exact ⟨rfl, rfl, rfl, ⟨rfl, rfl, rfl, rfl⟩, fun _ => rfl, ⟨rfl, rfl, rfl⟩, fun _ => ⟨rfl, rfl⟩⟩
  · exact ⟨rfl, rfl, rfl, ⟨rfl, rfl, rfl, rfl⟩, fun _ => rfl, ⟨rfl, rfl, rfl⟩,
      fun hf => absurd rfl hf⟩

/-- Settles O12: phase `DONE` reads no record, so the step is idle whatever `IN` holds. -/
theorem doneConsumesNothing : Obligations.DoneConsumesNothing := by
  unfold Obligations.DoneConsumesNothing
  intro s m hp hq
  have hquiet : Quiet { s with inp := m } := hq
  have hrecord : recordOf s.phase = none := by rw [hp]; rfl
  exact step_idle (restartAsked_quiet hquiet) ((fetch_idle_iff _).mpr hrecord)

end Sys2Proof.Machine
end

/-! # Proofs: fault entry, the final phases, and the four outcomes -/

section

namespace Sys2Proof.Machine

open Sys2Proof

/-! ## The final phases -/

/-- A step in `DONE` or `FAULT` without a reset line changes nothing (R172, R189; log entry 9). -/
theorem step_final {s : State} (hq : Quiet s) (hp : s.phase = .done ∨ s.phase = .fault) :
    step s = .next s :=
  step_idle (restartAsked_quiet hq) ((fetch_idle_iff s).mpr (recordOf_eq_none.mpr hp))

theorem phaseOf_ne_fault (r : Record) : phaseOf r ≠ .fault := by
  cases r <;> exact nofun

/-- Settles O11: no record is read in phase `FAULT`, so every meaning is outside its phase there and the
step is idle; a reset line gives the reset state with the host's stream. -/
theorem faultPhaseIsSticky : Obligations.FaultPhaseIsSticky := by
  unfold Obligations.FaultPhaseIsSticky
  intro s hp
  refine ⟨fun i t h => ?_, fun hq => step_final hq (.inr hp), fun hr => ⟨s.inp, step_restart hr⟩⟩
  have hphase : s.phase ≠ phaseOf i.record := fun he => phaseOf_ne_fault _ (he.symm.trans hp)
  rw [exec_wrongPhase hphase] at h
  cases h

/-! ## Several decoders -/

/-- Settles O54: `stepInstance` changes the list at one position. -/
theorem instancesIndependent : Obligations.InstancesIndependent := by
  unfold Obligations.InstancesIndependent
  intro bank j k
  exact ⟨List.length_modify .., fun hjk => List.getElem?_modify_ne _ _ hjk.symm,
    List.getElem?_modify_eq ..⟩

/-! ## Fault entry -/

/-- A header that is in phase `FAULT` after its execution entered it with code `BAD_MAGIC` or
`BAD_CHANNELS`, after latching (R101, R102). -/
theorem exec_hdr_fault {m w h : Word32} {c cs : Byte} {s t : State}
    (he : exec (.hdr m w h c cs) s = .next t) (hp : t.phase = .fault) :
    ∃ code, code ≠ .none ∧
      t = raiseFault code s.ip 14 (advanceIp 14 (latchHeader w h c cs s)) := by
  obtain ⟨-, ⟨-, rfl⟩ | ⟨-, -, rfl⟩ | ⟨-, -, rfl⟩⟩ := exec_hdr_cases he
  · exact ⟨.badMagic, nofun, rfl⟩
  · exact absurd hp (nextPhase_ne_fault _)
  · exact ⟨.badChannels, nofun, rfl⟩

/-- Any other operation that is in phase `FAULT` after its execution has done nothing but enter it
(R188). -/
theorem exec_fault_of_not_header {i : Instr} {s t : State} (hi : i.record ≠ .header)
    (he : exec i s = .next t) (hp : t.phase = .fault) :
    ∃ code, code ≠ .none ∧ t = raiseFault code s.ip i.length s := by
  cases hr : i.record with
  | header => exact absurd hr hi
  | chunk =>
    obtain ⟨-, ⟨-, -, hd⟩ | ⟨-, -, rfl⟩ | ⟨-, rfl⟩⟩ := exec_chunk_cases hr he
    · exact absurd hp hd.phase_ne_fault
    · exact ⟨.runOverflow, nofun, rfl⟩
    · exact ⟨.badRunPayload, nofun, rfl⟩
  | trailer =>
    cases i with
    | endOp b =>
      obtain ⟨-, ⟨-, rfl⟩ | ⟨-, rfl⟩⟩ := exec_end_cases he
      · cases hp
      · exact ⟨.badTrailer, nofun, rfl⟩
    | _ => cases hr

/-- Settles O29: the fault of a header is entered after latching, and any other from the state before. -/
theorem faultEntryExact : Obligations.FaultEntryExact := by
  unfold Obligations.FaultEntryExact
  intro s t i he hp
  by_cases hi : i.record = .header
  · cases i with
    | hdr m w h c cs =>
      obtain ⟨code, hcode, rfl⟩ := exec_hdr_fault he hp
      have hlatched : FaultTaken s
          (raiseFault code s.ip 14 (advanceIp 14 (latchHeader w h c cs s))) code 14 :=
        ⟨rfl, rfl, rfl, rfl, ⟨rfl, rfl, rfl, rfl⟩, ⟨rfl, rfl, rfl⟩⟩
      refine ⟨hlatched, hcode, fun _ _ _ _ _ heq => ?_, fun hne => absurd rfl hne⟩
      cases heq
      exact ⟨rfl, rfl, rfl, rfl⟩
    | _ => cases hi
  · obtain ⟨code, hcode, rfl⟩ := exec_fault_of_not_header hi he hp
    refine ⟨raiseFault_taken code i.length s, hcode, fun _ _ _ _ _ heq => ?_,
      fun _ => ⟨rfl, rfl, rfl, rfl⟩⟩
    subst heq
    exact absurd rfl hi

/-- A step without a reset line leaves the fault code, or puts there one that a stream can raise (R180,
R184, R185). -/
theorem StepCase.faultCode {s t : State} (h : StepCase s t) : t.faultCode = s.faultCode ∨
    t.faultCode = .badMagic ∨ t.faultCode = .badChannels ∨ t.faultCode = .runOverflow ∨
    t.faultCode = .badTrailer := by
  cases h with
  | headerFault hp w h c cs code hcode => obtain rfl | rfl := hcode <;> simp
  | header hp w h c cs hc u hu => subst hu; exact .inl rfl
  | overflow | badTrailer => simp
  | chunk n p run t hd => exact .inl hd.done.fault.1
  | idle | trailer => exact .inl rfl

/-- Settles O31: neither code is among those a step puts there, nor the one a restart does. -/
theorem unreachableFaultCodes : Obligations.UnreachableFaultCodes := by
  unfold Obligations.UnreachableFaultCodes
  intro s t h hcode
  obtain hq | hr := quiet_or_restart s
  · obtain hsame | hother := (stepCase_of_step hq h).faultCode
    · exact hsame.symm
    · obtain ho | ho | ho | ho := hother <;> simp [ho] at hcode
  · rw [step_restart hr] at h
    cases h
    simp at hcode

/-! ## The outcome of the byte-serial decoder -/

/-- While pixels wait, the decoder is stuck on output. -/
theorem runEnd_waiting {p : PortState} (h : 0 < p.left) : runEnd p = some .stuckOnOutput := if_pos h

/-- The outcome depends on the boundary state and the pixels waiting alone. -/
theorem runEnd_congr {p q : PortState} (hcore : q.core = p.core) (hleft : q.left = p.left) :
    runEnd q = runEnd p := by
  rw [runEnd, runEnd, hcore, hleft]

/-- The outcome with no pixel waiting, by the phase: an operation whose bytes have all arrived is not left
undone, so a decoder that is not in a final phase is stuck on input (R192). -/
theorem PortBoundary.runEnd_phase {p : PortState} (hp : PortBoundary p) (hl : p.left = 0) :
    runEnd p = some (match p.core.phase with
      | .done => .done
      | .fault => .fault
      | _ => .stuckOnInput) := by
  rw [runEnd, if_neg hl.not_gt]
  cases hf : fetch p.core with
  | op i => exact absurd hf ((hp.collecting hl).2 i)
  | idle =>
    have hfinal := recordOf_eq_none.mp ((fetch_idle_iff _).mp hf)
    obtain hd | hd := hfinal <;> simp [hd]
  | stuck =>
    obtain ⟨r, hr, -⟩ := (fetch_stuck_iff _).mp hf
    rw [recordOf_eq_some.mp hr]
    cases r <;> rfl

/-- The four outcomes of a run, with what each is (R192). -/
theorem PortBoundary.runEnd_cases {p : PortState} (hp : PortBoundary p) :
    (0 < p.left ∧ busyFlag p.core = true ∧ runEnd p = some .stuckOnOutput) ∨
    (p.left = 0 ∧ p.core.phase = .done ∧ runEnd p = some .done) ∨
    (p.left = 0 ∧ p.core.phase = .fault ∧ runEnd p = some .fault) ∨
    (p.left = 0 ∧ busyFlag p.core = true ∧ runEnd p = some .stuckOnInput) := by
  obtain hl | hl := Nat.eq_zero_or_pos p.left
  · have h := hp.runEnd_phase hl
    cases hphase : p.core.phase <;> rw [hphase] at h <;> simp [hl, h, busyFlag, hphase]
  · obtain ⟨⟨hchunk, -⟩, -⟩ := hp.emitting_chunk hl
    have hbusy : busyFlag p.core = true := (busyFlag_iff _).mpr (.inr (.inl hchunk))
    exact .inl ⟨hl, hbusy, runEnd_waiting hl⟩

/-- A busy decoder is in no final phase. -/
theorem not_final_of_busy {s : State} (h : busyFlag s = true) : s.phase ≠ .done ∧ s.phase ≠ .fault := by
  obtain hp | hp | hp := (busyFlag_iff s).mp h <;> simp [hp]

/-- Each outcome by what it means: in each of the four cases the other three are excluded (R192). -/
theorem PortBoundary.runEnd_iff {p : PortState} (hp : PortBoundary p) :
    (runEnd p = some .stuckOnOutput ↔ 0 < p.left) ∧
    (runEnd p = some .done ↔ p.core.phase = .done) ∧
    (runEnd p = some .fault ↔ p.core.phase = .fault) ∧
    (runEnd p = some .stuckOnInput ↔ p.left = 0 ∧ busyFlag p.core = true) := by
  obtain ⟨hl, hbusy, h⟩ | ⟨hl, hphase, h⟩ | ⟨hl, hphase, h⟩ | ⟨hl, hbusy, h⟩ := hp.runEnd_cases
  · simp [h, hl, hl.ne', not_final_of_busy hbusy]
  · simp [h, hl, hphase, busyFlag]
  · simp [h, hl, hphase, busyFlag]
  · simp [h, hl, hbusy, not_final_of_busy hbusy]

/-- A cycle without a reset line and without a transfer leaves the boundary state and the pixels waiting,
and what is offered stays offered (R55). -/
theorem tick_without_transfer {pace : Pace} {i : PortIn} {p : PortState}
    (hr : portResetAsked i = false) (he : tickEvent pace i p = []) :
    (tick pace i p).core = p.core ∧ (tick pace i p).left = p.left ∧
      (p.offering = true → (tick pace i p).offering = true) := by
  obtain ⟨-, -, -, h⟩ | ⟨-, -, ht, -⟩ | ⟨hoff, -, ht, -⟩ | ⟨-, -, -, -, -, -, h⟩ | ⟨-, -, -, ht, -⟩ :=
    tick_cases pace p hr
  · rw [h] at he; cases he
  · rw [ht]; exact ⟨rfl, rfl, id⟩
  · rw [ht]; exact ⟨rfl, rfl, fun h => by rw [hoff] at h; cases h⟩
  · rw [h] at he; cases he
  · rw [ht]; exact ⟨rfl, rfl, id⟩

/-- Settles O60: the outcomes exclude each other, and a cycle in which the host does nothing has no
transfer. -/
theorem fourOutcomes : Obligations.FourOutcomes := by
  unfold Obligations.FourOutcomes
  intro p hp
  obtain ⟨hwaiting, hdone, hfault, hstuck⟩ := hp.runEnd_iff
  refine ⟨hwaiting, hdone, hfault, hstuck, fun pace i hr hv ho => ?_⟩
  have hnone : tickEvent pace i p = [] := by simp [tickEvent, hv, ho]
  obtain ⟨hcore, hleft, -⟩ := tick_without_transfer hr hnone
  exact runEnd_congr hcore hleft

end Sys2Proof.Machine
end

/-! # Proofs: runs of the model end -/

section

namespace Sys2Proof.Machine

open Sys2Proof

/-- A step that reads an operation moves `ip` on, and not past the end of the stream (R16, R43). -/
theorem step_ip_lt {s t : State} (hs : FilledTo s.inp s.inp.length) (hq : Quiet s)
    (hp : recordOf s.phase ≠ none) (h : step s = .next t) : s.ip < t.ip ∧ t.ip ≤ s.inp.length := by
  obtain ⟨hn, -⟩ | ⟨i, -, hw, hh, he⟩ := step_quiet_cases hq h
  · exact absurd hn hp
  · have hend := hh.end_le hs
    have hpos := instr_length_pos i
    rw [exec_ip hw he]
    omega

/-- A run of one step more, by its first step. -/
theorem stepN_succ (k : Nat) {s t : State} (h : step s = .next t) : stepN (k + 1) s = stepN k t := by
  rw [stepN, h]

/-- A run ends within one step more than there are bytes from `ip` on: each step but the last consumes
one (R192, R220). -/
theorem stepN_ends {s : State} (hs : Boundary s) (hq : Quiet s) :
    ∃ k ≤ s.inp.length - s.ip + 1, stepN k s = .fault .stuckOnInput ∨
      ∃ t, stepN k s = .next t ∧ (t.phase = .done ∨ t.phase = .fault) := by
  induction hm : s.inp.length - s.ip using Nat.strong_induction_on generalizing s with
  | _ m ih =>
    by_cases hp : recordOf s.phase = none
    · exact ⟨0, Nat.zero_le _, .inr ⟨s, rfl, recordOf_eq_none.mp hp⟩⟩
    obtain ⟨t, ht⟩ | ⟨hstuck, -⟩ := hs.step_cases
    · obtain ⟨hlt, hle⟩ := step_ip_lt hs.inp hq hp ht
      have hinp : t.inp = s.inp := (stepCase_of_step hq ht).sameHost.1
      have hless : t.inp.length - t.ip < m := by rw [hinp]; omega
      obtain ⟨k, hk, hrun⟩ := ih _ hless (stepKeepsBoundary s t hs ht) (quiet_step hq ht) rfl
      refine ⟨k + 1, by omega, ?_⟩
      rwa [stepN_succ k ht]
    · exact ⟨1, Nat.le_add_left 1 m, .inl (by rw [stepN, hstuck])⟩

/-- A run that goes on is a run from the state it has reached. -/
theorem stepN_add {j : Nat} (k : Nat) {s u : State} (h : stepN j s = .next u) :
    stepN (j + k) s = stepN k u := by
  induction j generalizing s with
  | zero => cases h; rw [Nat.zero_add]
  | succ j ih =>
    obtain ⟨v, hv, hrun⟩ := stepN_succ_eq_next.mp h
    rw [Nat.succ_add, stepN_succ _ hv, ih hrun]

/-- A run from a final phase stays where it is (R172, R189). -/
theorem stepN_final (k : Nat) {s : State} (hq : Quiet s) (hp : s.phase = .done ∨ s.phase = .fault) :
    stepN k s = .next s := by
  induction k with
  | zero => rfl
  | succ k ih => rw [stepN_succ k (step_final hq hp), ih]

end Sys2Proof.Machine
end

/-! # Proofs: what a cycle does to the boundary state and the transfers counted -/

section

namespace Sys2Proof.Machine

open Sys2Proof

section
variable (pace : Pace) {i : PortIn} {p : PortState} (hp : PortBoundary p)
  (hr : portResetAsked i = false)
include hp hr

/-- A cycle takes the byte offered as the next one of `IN`, or takes no byte and leaves `IN` (R54). -/
theorem tick_inp :
    (i.inValid = true ∧ (tick pace i p).core.inp = p.core.inp ++ [(p.core.inp.length, i.inData)] ∧
      tickEvent pace i p = [.byteIn i.inData]) ∨
    ((tick pace i p).core.inp = p.core.inp ∧
      (tickEvent pace i p).countP PortEvent.isByte = 0) := by
  obtain ⟨hoff, -, ht, he⟩ | ⟨-, -, ht, he⟩ | ⟨-, -, ht, he⟩ | ⟨-, -, -, -, hv, ht, he⟩ |
    ⟨-, -, -, ht, he⟩ := tick_cases pace p hr <;> rw [ht, he]
  · refine .inr ⟨?_, rfl⟩
    obtain ⟨-, h⟩ | ⟨-, h⟩ := afterPixel_cases pace p <;> rw [h]
    exact (stepCase_of_step hp.quiet (hp.step_core (hp.left_pos hoff))).sameHost.1
  · exact .inr ⟨rfl, rfl⟩
  · exact .inr ⟨rfl, rfl⟩
  · have hq : Quiet (offerByte p.core i.inData) := hp.quiet
    exact .inl ⟨hv, (afterByte_inp pace hq).trans (offerByte_inp hp.core.inp _), rfl⟩
  · exact .inr ⟨rfl, rfl⟩

/-- A cycle leaves the boundary state but for the bytes transferred, or completes the operation there
(R56). -/
theorem tick_core :
    (tick pace i p).core = { p.core with inp := (tick pace i p).core.inp } ∨
    ((tick pace i p).left = 0 ∧
      step { p.core with inp := (tick pace i p).core.inp } = .next (tick pace i p).core) := by
  obtain ⟨hoff, -, ht, -⟩ | ⟨-, -, ht, -⟩ | ⟨-, -, ht, -⟩ | ⟨-, -, -, -, -, ht, -⟩ |
    ⟨-, -, -, ht, -⟩ := tick_cases pace p hr <;> rw [ht]
  · obtain ⟨-, h⟩ | ⟨-, h⟩ := afterPixel_cases pace p <;> rw [h]
    · have hstep := hp.step_core (hp.left_pos hoff)
      have hinp : (settle p.core).inp = p.core.inp := (stepCase_of_step hp.quiet hstep).sameHost.1
      exact .inr ⟨rfl, by rw [hinp]; exact hstep⟩
    · exact .inl rfl
  · exact .inl rfl
  · exact .inl rfl
  · obtain ⟨-, h⟩ | ⟨t, hstep, ⟨-, h⟩ | ⟨-, h⟩⟩ := afterByte_shape pace (offerByte p.core i.inData) <;>
      rw [h]
    · exact .inl rfl
    · have hq : Quiet (offerByte p.core i.inData) := hp.quiet
      have hinp : t.inp = (offerByte p.core i.inData).inp := (stepCase_of_step hq hstep).sameHost.1
      exact .inr ⟨rfl, by rw [hinp]; exact hstep⟩
    · exact .inl rfl
  · exact .inl rfl

end

/-- A busy decoder with no pixel waiting is at a boundary state that is stuck (R43, R54). -/
theorem PortBoundary.step_stuck {p : PortState} (hp : PortBoundary p) (hl : p.left = 0)
    (hbusy : busyFlag p.core = true) : step p.core = .fault .stuckOnInput := by
  obtain ⟨hdone, hfault⟩ := not_final_of_busy hbusy
  cases hf : fetch p.core with
  | op i => exact absurd hf ((hp.collecting hl).2 i)
  | stuck => exact Machine.step_stuck (restartAsked_quiet hp.quiet) hf
  | idle =>
    have hfinal := recordOf_eq_none.mp ((fetch_idle_iff _).mp hf)
    exact absurd hfinal (not_or.mpr ⟨hdone, hfault⟩)

/-! ## Pixels transferred -/

/-- The pixels transferred since reset: those of the boundary and those of the chunk in progress. -/
def pixelsOut (p : PortState) : Nat := p.core.opx.toNat + sentPixels p

/-- An operation counts its new pixels in `opx` (R17). -/
theorem opx_add_newPixels {s t : State} (hs : Boundary s) (hq : Quiet s) (h : step s = .next t) :
    s.opx.toNat + newPixels s = t.opx.toNat := by
  obtain ⟨hle, -⟩ := outputAppendOnly s t hs hq h
  rw [newPixels, step_settle h]
  omega

/-- A pixel accepted is one more transferred. -/
theorem pixelsOut_afterPixel (pace : Pace) {p : PortState} (hp : PortBoundary p) (hl : 0 < p.left) :
    pixelsOut (afterPixel pace p) = pixelsOut p + 1 := by
  have hsent := sentPixels_add_left hp hl
  obtain ⟨hle, h⟩ | ⟨hlt, h⟩ := afterPixel_cases pace p <;> rw [h]
  · have hopx := opx_add_newPixels hp.core hp.quiet (hp.step_core hl)
    have h0 : sentPixels ⟨settle p.core, 0, false⟩ = 0 := sentPixels_of_left_eq_zero rfl
    simp only [pixelsOut, h0]
    omega
  · have hpos : 0 < p.left - 1 := Nat.sub_pos_of_lt hlt
    have hsent' := sentPixels_add_left (hp.waiting pace.outNow hpos (Nat.sub_le _ _)) hpos
    simp only [pixelsOut]
    dsimp only at hsent'
    omega

/-- A byte taken transfers no pixel. -/
theorem pixelsOut_afterByte (pace : Pace) {c : State} (hc : Boundary c) (hq : Quiet c) :
    pixelsOut (afterByte pace c) = c.opx.toNat := by
  obtain ⟨-, h⟩ | ⟨t, ht, ⟨h0, h⟩ | ⟨hpos, h⟩⟩ := afterByte_shape pace c <;> rw [h, pixelsOut]
  · exact congrArg _ (sentPixels_of_left_eq_zero rfl)
  · have hopx := opx_add_newPixels hc hq ht
    rw [h0] at hopx
    rw [sentPixels_of_left_eq_zero rfl]
    exact hopx.symm
  · rw [sentPixels, if_neg hpos.ne', Nat.sub_self]
    rfl

/-- The pixels transferred are counted by the cycles' transfers (R55, R56). -/
theorem pixelsOut_tick (pace : Pace) {i : PortIn} {p : PortState} (hp : PortBoundary p)
    (hr : portResetAsked i = false) : pixelsOut (tick pace i p) =
      pixelsOut p + (tickEvent pace i p).countP (fun e => !e.isByte) := by
  obtain ⟨hoff, -, ht, he⟩ | ⟨-, -, ht, he⟩ | ⟨-, -, ht, he⟩ | ⟨-, hl, -, -, -, ht, he⟩ |
    ⟨-, -, -, ht, he⟩ := tick_cases pace p hr <;> rw [ht, he]
  · exact pixelsOut_afterPixel pace hp (hp.left_pos hoff)
  · rfl
  · rfl
  · have hq : Quiet (offerByte p.core i.inData) := hp.quiet
    rw [pixelsOut_afterByte pace (hp.core.offerByte i.inData) hq, pixelsOut,
      sentPixels_of_left_eq_zero hl]
    rfl
  · rfl

/-- No more pixels are transferred than the image has: those of a chunk in progress are counted at the
next boundary (R17, R27). -/
theorem pixelsOut_le {p : PortState} (hp : PortBoundary p) :
    pixelsOut p ≤ p.core.width.toNat * p.core.height.toNat := by
  rw [pixelsOut]
  obtain hl | hl := Nat.eq_zero_or_pos p.left
  · rw [sentPixels_of_left_eq_zero hl]
    exact hp.core.room
  · have hstep := hp.step_core hl
    have hsent := sentPixels_add_left hp hl
    have hopx := opx_add_newPixels hp.core hp.quiet hstep
    obtain ⟨⟨hchunk, -⟩, -⟩ := hp.emitting_chunk hl
    have hphase : p.core.phase ≠ .hdr := by rw [hchunk]; decide
    obtain ⟨hw, hh, -⟩ := (stepCase_of_step hp.quiet hstep).sameHeader hphase
    have hroom := (stepKeepsBoundary _ _ hp.core hstep).room
    rw [hw, hh] at hroom
    omega

end Sys2Proof.Machine
end

/-! # Proofs: a decoder served one stream -/

section

namespace Sys2Proof.Machine

open Sys2Proof

/-! ## The stream as a memory -/

theorem filledTo_streamMemory (stream : List Byte) : FilledTo (streamMemory stream) stream.length := by
  have h := filledTo_nil.memWrite stream
  rwa [Nat.zero_add] at h

theorem streamMemory_bytes (stream : List Byte) : (streamMemory stream).map Prod.snd = stream := by
  rw [streamMemory, filledTo_nil.memWrite_eq, List.nil_append, cellsFrom_bytes]

/-- A memory that holds the first bytes of a stream reads as the stream there. -/
theorem readByte_streamMemory_of_prefix {stream : List Byte} {m : Memory}
    (hm : FilledTo m m.length) (hpre : m.map Prod.snd <+: stream) {a : Nat} (ha : a < m.length) :
    readByte (streamMemory stream) a = readByte m a := by
  have hlt : a < (m.map Prod.snd).length := by rwa [List.length_map]
  rw [(filledTo_streamMemory stream).readByte_eq, hm.readByte_eq, streamMemory_bytes,
    List.getElem?_eq_getElem hlt, hpre.getElem hlt,
    ← List.getElem?_eq_getElem]

/-- A memory that holds as many first bytes of a stream as it has is the stream's. -/
theorem eq_streamMemory_of_prefix {stream : List Byte} {m : Memory} (hm : FilledTo m m.length)
    (hpre : m.map Prod.snd <+: stream) (hl : m.length = stream.length) : m = streamMemory stream := by
  have hbytes : m.map Prod.snd = stream := hpre.eq_of_length (by rw [List.length_map, hl])
  rw [← hbytes]
  exact hm.eq_streamMemory

/-- The first bytes of a stream and the next one are first bytes of it. -/
theorem isPrefix_concat_next {l stream : List Byte} {b : Byte} (h : l <+: stream)
    (hb : stream[l.length]? = some b) : l ++ [b] <+: stream := by
  obtain ⟨hlt, rfl⟩ := List.getElem?_eq_some_iff.mp hb
  exact List.concat_get_prefix h hlt

/-! ## Cycle by cycle -/

/-- The transfer of cycle `n`. -/
def serveEvent (stream : List Byte) (turns : Nat → Turn) (n : Nat) : List PortEvent :=
  tickEvent (turns n).pace (hostInput stream (turns n) (serve stream turns n)) (serve stream turns n)

section
variable (stream : List Byte) (turns : Nat → Turn)

theorem serveEvents_succ (n : Nat) :
    serveEvents stream turns (n + 1) = serveEvents stream turns n ++ serveEvent stream turns n := rfl

theorem serve_boundary (n : Nat) : PortBoundary (serve stream turns n) := by
  induction n with
  | zero => exact portResetBoundary
  | succ n ih => exact tickKeepsPortInvariant _ _ _ ih

/-- The bytes transferred are the first of the stream (R54). -/
theorem serve_prefix (n : Nat) : (serve stream turns n).core.inp.map Prod.snd <+: stream := by
  induction n with
  | zero => exact List.nil_prefix
  | succ n ih =>
    rw [serve]
    obtain ⟨hv, hinp, -⟩ | ⟨hinp, -⟩ := tick_inp (turns n).pace (serve_boundary stream turns n)
      (hostInput_resetAsked stream (turns n) (serve stream turns n)) <;> rw [hinp]
    · rw [List.map_append]
      exact isPrefix_concat_next ih (by rw [List.length_map]; exact hostInput_inData hv)
    · exact ih

theorem serve_length_le (n : Nat) : (serve stream turns n).core.inp.length ≤ stream.length := by
  simpa using (serve_prefix stream turns n).length_le

/-- The transfers of bytes are as many as the bytes transferred. -/
theorem serveEvents_bytes (n : Nat) : (serveEvents stream turns n).countP PortEvent.isByte =
    (serve stream turns n).core.inp.length := by
  induction n with
  | zero => rfl
  | succ n ih =>
    rw [serveEvents_succ, List.countP_append, ih, serve, serveEvent]
    obtain ⟨-, hinp, he⟩ | ⟨hinp, he⟩ := tick_inp (turns n).pace (serve_boundary stream turns n)
      (hostInput_resetAsked stream (turns n) (serve stream turns n)) <;> rw [hinp, he]
    · rw [List.length_append]
      rfl
    · rfl

/-- The transfers of pixels are as many as the pixels transferred. -/
theorem serveEvents_pixels (n : Nat) : (serveEvents stream turns n).countP (fun e => !e.isByte) =
    pixelsOut (serve stream turns n) := by
  induction n with
  | zero => rfl
  | succ n ih =>
    rw [serveEvents_succ, List.countP_append, ih, serve, serveEvent,
      pixelsOut_tick _ (serve_boundary stream turns n) (hostInput_resetAsked _ _ _)]

/-- There are never more transfers than the stream has bytes and an image can have pixels. -/
theorem serveEvents_length_le (n : Nat) :
    (serveEvents stream turns n).length ≤ stream.length + 2 ^ 64 := by
  have hbytes := serveEvents_bytes stream turns n
  have hpixels := serveEvents_pixels stream turns n
  have hL := serve_length_le stream turns n
  have hP := pixelsOut_le (serve_boundary stream turns n)
  have hbound := pixelCount_lt (serve stream turns n).core
  have hsum := List.length_eq_countP_add_countP PortEvent.isByte (l := serveEvents stream turns n)
  simp only [Bool.not_eq_true, Bool.decide_eq_false] at hsum
  omega

theorem serveEvents_length_mono : Monotone fun n => (serveEvents stream turns n).length :=
  monotone_nat_of_le_succ fun n => by
    rw [serveEvents_succ, List.length_append]
    exact Nat.le_add_right _ _

end

/-! ## Every boundary of the model is reached -/

/-- A step is the same with any memory as `IN` that agrees below the `ip` it reaches (R41). -/
theorem step_withInp {s t : State} {m m' : Memory} (hq : Quiet s)
    (h : step { s with inp := m } = .next t) (hm : ∀ a < t.ip, readByte m' a = readByte m a) :
    step { s with inp := m' } = .next { t with inp := m' } :=
  otherBytesUnread { s with inp := m } t m' hq h fun a _ => hm a

section
variable (stream : List Byte) (turns : Nat → Turn)

/-- The decoder stands, at some cycle, at each boundary the model reaches in at most `k` steps. -/
def ReachesUpTo (k : Nat) : Prop :=
  ∀ j ≤ k, ∀ t, stepN j (onStream stream) = .next t → ∃ n, Reached (serve stream turns n) t

/-- The boundary state with the whole stream in `IN`. -/
def onWholeStream (n : Nat) : State := { (serve stream turns n).core with inp := streamMemory stream }

theorem onWholeStream_quiet (n : Nat) : Quiet (onWholeStream stream turns n) :=
  (serve_boundary stream turns n).quiet

/-- With no pixel waiting, the decoder stands at its boundary state. -/
theorem reached_onWholeStream {n : Nat} (h : (serve stream turns n).left = 0) :
    Reached (serve stream turns n) (onWholeStream stream turns n) := ⟨h, rfl⟩

/-- An operation completed at the ports is the model's on the whole stream: the bytes it reads are
transferred (R41). -/
theorem step_onWholeStream {n : Nat}
    (h : step { (serve stream turns n).core with inp := (serve stream turns (n + 1)).core.inp } =
      .next (serve stream turns (n + 1)).core) :
    step (onWholeStream stream turns n) = .next (onWholeStream stream turns (n + 1)) := by
  have hp := serve_boundary stream turns (n + 1)
  exact step_withInp (serve_boundary stream turns n).quiet h fun a ha =>
    readByte_streamMemory_of_prefix hp.core.inp (serve_prefix stream turns (n + 1))
      (ha.trans_le hp.consumed)

/-- The model reaches the boundary state of each cycle, and the decoder has stood at every boundary
before it (R56). -/
theorem serve_follows (n : Nat) : ∃ k,
    stepN k (onStream stream) = .next (onWholeStream stream turns n) ∧
      ReachesUpTo stream turns k := by
  induction n with
  | zero =>
    refine ⟨0, rfl, fun j hj t ht => ⟨0, ?_⟩⟩
    obtain rfl := Nat.le_zero.mp hj
    cases ht
    exact ⟨rfl, rfl⟩
  | succ n ih =>
    obtain ⟨k, hrun, hreached⟩ := ih
    obtain hsame | ⟨hl, hstep⟩ := tick_core (turns n).pace (serve_boundary stream turns n)
      (hostInput_resetAsked stream (turns n) (serve stream turns n))
    · have hwhole : onWholeStream stream turns (n + 1) = onWholeStream stream turns n :=
        congrArg (fun s : State => { s with inp := streamMemory stream }) hsame
      exact ⟨k, hwhole ▸ hrun, hreached⟩
    · have hrun' := (stepN_succ_last hrun (step_onWholeStream stream turns hstep)).1
      refine ⟨k + 1, hrun', fun j hj t ht => ?_⟩
      obtain hlt | rfl := Nat.lt_or_eq_of_le hj
      · exact hreached j (Nat.le_of_lt_succ hlt) t ht
      · rw [hrun'] at ht
        cases ht
        exact ⟨n + 1, reached_onWholeStream stream turns hl⟩

/-- How a run on the stream comes to an end (R192). -/
def EndedAt (n : Nat) : Prop :=
  runEnd (serve stream turns n) = some .done ∨ runEnd (serve stream turns n) = some .fault ∨
    (runEnd (serve stream turns n) = some .stuckOnInput ∧
      (serve stream turns n).core.inp.length = stream.length)

variable {stream turns}

/-- With the whole stream transferred the boundary state has it in `IN`. -/
theorem onWholeStream_of_length {n : Nat}
    (h : (serve stream turns n).core.inp.length = stream.length) :
    onWholeStream stream turns n = (serve stream turns n).core := by
  have hinp := eq_streamMemory_of_prefix (serve_boundary stream turns n).core.inp
    (serve_prefix stream turns n) h
  rw [onWholeStream, ← hinp]

/-- Where the run has ended no pixel waits, and the model has no further boundary to reach. -/
theorem EndedAt.stepN_eq {n : Nat} (h : EndedAt stream turns n) {d : Nat} {t : State}
    (ht : stepN d (onWholeStream stream turns n) = .next t) :
    (serve stream turns n).left = 0 ∧ t = onWholeStream stream turns n := by
  have hp := serve_boundary stream turns n
  have hq := onWholeStream_quiet stream turns n
  obtain ⟨-, hdone, hfault, hstuck⟩ := hp.runEnd_iff
  have hl : (serve stream turns n).left = 0 := by
    refine Nat.eq_zero_of_not_pos fun hl => ?_
    simp [EndedAt, runEnd_waiting hl] at h
  refine ⟨hl, ?_⟩
  obtain hend | hend | ⟨hend, hlen⟩ := h
  · rw [stepN_final d hq (.inl (hdone.mp hend))] at ht
    cases ht
    rfl
  · rw [stepN_final d hq (.inr (hfault.mp hend))] at ht
    cases ht
    rfl
  · cases d with
    | zero => cases ht; rfl
    | succ d =>
      have hstep := hp.step_stuck hl (hstuck.mp hend).2
      rw [stepN, onWholeStream_of_length hlen, hstep] at ht
      cases ht

/-- Where the run ends at all, every boundary of the model is reached. -/
theorem EndedAt.reached {n : Nat} (h : EndedAt stream turns n) {k : Nat} {t : State}
    (ht : stepN k (onStream stream) = .next t) : ∃ m, Reached (serve stream turns m) t := by
  obtain ⟨k', hrun, hreached⟩ := serve_follows stream turns n
  obtain hlt | hle := Nat.lt_or_ge k' k
  · obtain ⟨d, rfl⟩ := Nat.exists_eq_add_of_le hlt.le
    rw [stepN_add d hrun] at ht
    obtain ⟨hl, rfl⟩ := h.stepN_eq ht
    exact ⟨n, reached_onWholeStream stream turns hl⟩
  · exact hreached k hle t ht

end

/-! ## A fair run ends -/

section
variable {stream : List Byte} {turns : Nat → Turn}

/-- From cycle `n` on there is no transfer. -/
def SilentFrom (stream : List Byte) (turns : Nat → Turn) (n : Nat) : Prop :=
  ∀ m ≥ n, serveEvent stream turns m = []

/-- While there is no transfer, the boundary state and the pixels waiting stay, and what is offered stays
offered. -/
theorem SilentFrom.frame {n m : Nat} (h : SilentFrom stream turns n) (hm : n ≤ m) :
    (serve stream turns m).core = (serve stream turns n).core ∧
      (serve stream turns m).left = (serve stream turns n).left ∧
      ((serve stream turns n).offering = true → (serve stream turns m).offering = true) := by
  induction m, hm using Nat.le_induction with
  | base => exact ⟨rfl, rfl, id⟩
  | succ m hm ih =>
    obtain ⟨hcore, hleft, hoff⟩ := ih
    obtain ⟨hcore', hleft', hoff'⟩ := tick_without_transfer (hostInput_resetAsked _ _ _) (h m hm)
    exact ⟨hcore'.trans hcore, hleft'.trans hleft, hoff' ∘ hoff⟩

/-- A fair run transfers a waiting pixel: the decoder offers it, and later the host accepts it (R55). -/
theorem FairTurns.pixel {n : Nat} (hf : FairTurns turns) (hl : 0 < (serve stream turns n).left) :
    ¬ SilentFrom stream turns n := by
  intro h
  obtain ⟨-, ⟨m, hm, hnow⟩, -⟩ := hf n
  have hoffered : (serve stream turns (m + 1)).offering = true := by
    obtain ⟨-, hsame, -⟩ := h.frame hm
    have hleft : 0 < (serve stream turns m).left := hsame ▸ hl
    have hr := hostInput_resetAsked stream (turns m) (serve stream turns m)
    cases hoff : (serve stream turns m).offering with
    | true =>
      obtain ⟨-, -, hkept⟩ := tick_without_transfer hr (h m hm)
      exact hkept hoff
    | false =>
      rw [serve, (tick_offer (turns m).pace hr hoff hleft).1]
      exact hnow
  obtain ⟨-, -, ⟨a, ha, haccept⟩⟩ := hf (m + 1)
  have hsilent : SilentFrom stream turns (m + 1) := fun b hb => h b (by omega)
  obtain ⟨-, -, hkept⟩ := hsilent.frame ha
  have hoff := hkept hoffered
  have hpixel : serveEvent stream turns a = [.pixelOut (outPx (serve stream turns a))] :=
    (tick_pixel _ (hostInput_resetAsked _ _ _) hoff ((hostInput_outReady _ _ _).trans haccept)).2
  cases hpixel.symm.trans (hsilent a ha)

/-- A fair run transfers a byte to a decoder that waits for one, as long as the stream has one more
(R54). -/
theorem FairTurns.byte {n : Nat} (hf : FairTurns turns) (hl : (serve stream turns n).left = 0)
    (hbusy : busyFlag (serve stream turns n).core = true)
    (hmore : (serve stream turns n).core.inp.length < stream.length) :
    ¬ SilentFrom stream turns n := by
  intro h
  obtain ⟨⟨m, hm, hnow, hoffer⟩, -, -⟩ := hf n
  obtain ⟨hcore, hleft, -⟩ := h.frame hm
  rw [← hleft] at hl
  rw [← hcore] at hbusy hmore
  have hoff := ((serve_boundary stream turns m).collecting hl).1
  have hr := hostInput_resetAsked stream (turns m) (serve stream turns m)
  have hin := (inReady_iff (turns m).pace _ _).mpr ⟨hr, hbusy, hl, hoff, hnow⟩
  have hv := (hostInput_inValid stream (turns m) (serve stream turns m)).mpr ⟨hoffer, hmore⟩
  cases (tick_byte _ hr hin hv).2.symm.trans (h m hm)

/-- A fair run that has not ended transfers again. -/
theorem FairTurns.not_silent {n : Nat} (hf : FairTurns turns) (h : ¬ EndedAt stream turns n) :
    ¬ SilentFrom stream turns n := by
  obtain ⟨hl, -, -⟩ | ⟨-, -, he⟩ | ⟨-, -, he⟩ | ⟨hl, hbusy, he⟩ :=
    (serve_boundary stream turns n).runEnd_cases
  · exact hf.pixel hl
  · exact absurd (.inl he) h
  · exact absurd (.inr (.inl he)) h
  · have hne : (serve stream turns n).core.inp.length ≠ stream.length :=
      fun heq => h (.inr (.inr ⟨he, heq⟩))
    exact hf.byte hl hbusy (lt_of_le_of_ne (serve_length_le stream turns n) hne)

/-- A fair run that never ended would have more transfers than any bound. -/
theorem FairTurns.unbounded (hf : FairTurns turns) (h : ∀ n, ¬ EndedAt stream turns n) (bound : Nat) :
    ∃ n, bound ≤ (serveEvents stream turns n).length := by
  induction bound with
  | zero => exact ⟨0, Nat.zero_le _⟩
  | succ bound ih =>
    obtain ⟨n, hn⟩ := ih
    have hagain := hf.not_silent (h n)
    simp only [SilentFrom, not_forall] at hagain
    obtain ⟨m, hm, hevent⟩ := hagain
    have hmono := serveEvents_length_mono stream turns hm
    have hpos := List.length_pos_iff.mpr hevent
    refine ⟨m + 1, ?_⟩
    rw [serveEvents_succ, List.length_append]
    dsimp only at hmono
    omega

/-- Every fair run ends (R220). -/
theorem FairTurns.ends (stream : List Byte) (hf : FairTurns turns) : ∃ n, EndedAt stream turns n := by
  by_contra hnever
  obtain ⟨n, hn⟩ := hf.unbounded (not_exists.mp hnever) (stream.length + 2 ^ 64 + 1)
  have hle := serveEvents_length_le stream turns n
  omega

end

/-- Settles O49: each step of the model consumes a byte, and a fair run goes on to transfer until it ends,
with no more transfers than bytes and pixels. -/
theorem runEndsWithinStream : Obligations.RunEndsWithinStream := by
  unfold Obligations.RunEndsWithinStream
  refine ⟨fun s hs hq => ?_, fun stream turns hf => ?_⟩
  · obtain ⟨k, hk, hrun⟩ := stepN_ends hs hq
    exact ⟨k, by omega, hrun⟩
  · obtain ⟨n, hn⟩ := hf.ends stream
    refine ⟨fun k t ht => hn.reached ht, ⟨n, hn⟩, fun m => ?_⟩
    rw [serveEvents_bytes, serveEvents_pixels]
    exact ⟨serve_length_le stream turns m, pixelsOut_le (serve_boundary stream turns m)⟩

end Sys2Proof.Machine
end
